-- ==== Sys2Proof/Word.lean ====
section
/-! DEFINITION. The word types of the core (00_scope.md R7, R8): every value is unsigned. -/

namespace Sys2Proof

/-- A byte of a serialized record (30_encoding.md R72). -/
abbrev Byte := BitVec 8

/-- A 64-bit unsigned word: a register (10_state.md R21), the program counter (R28), an argument
(30_encoding.md R70). -/
abbrev Word := BitVec 64

/-- An 8-bit register index; every value names a register (10_state.md R23, 30_encoding.md R77). -/
abbrev RegIdx := BitVec 8

/-- The 128-bit little-endian value of one record (30_encoding.md R73). -/
abbrev RecordWord := BitVec 128

end Sys2Proof
end

