-- ==== Sys2Proof/Config.lean ====
section
/-! DEFINITION. The core's fixed parameters (00_scope.md R7). The spec leaves no value free, so there is no
`opaque` constant. The opcode map (92_eei_decisions.md D2) is a parameter of the decoder, in Decode.lean. -/

namespace Sys2Proof

/-- `REGISTER_COUNT` (00_scope.md R7, 10_state.md R21). -/
abbrev Config.registerCount : Nat := 256

/-- `RECORD_SIZE` in bytes (00_scope.md R7, 30_encoding.md R71). -/
abbrev Config.recordSize : Nat := 16

/-- One more than the largest program length: `0 <= N <= 2^64 - 1` (00_scope.md R7, 92_eei_decisions.md D8). -/
abbrev Config.programLengthBound : Nat := 2 ^ 64

end Sys2Proof
end

