-- ==== Sys2Proof/Syntax.lean ====
section
/-! DEFINITION. Instruction records and instructions as data (30_encoding.md R70, R83). -/

namespace Sys2Proof

/-- The nine operations of the closed instruction set (00_scope.md R2, 30_encoding.md R74). -/
inductive Mnemonic where
  | nop | inc | dec | dbg | qit | ldc | cpy | jnz | jwz
  deriving DecidableEq, Repr

/-- The nine operations in the order of the source's table (30_encoding.md R74). -/
def Mnemonic.all : List Mnemonic := [.nop, .inc, .dec, .dbg, .qit, .ldc, .cpy, .jnz, .jwz]

/-- An Instruction Record with its reserved bytes (30_encoding.md R70, R72). -/
structure Record where
  opcode   : Byte
  reg      : RegIdx
  reserved : BitVec 48
  argument : Word
  deriving DecidableEq, Repr

/-- A decoded instruction, carrying only the operands it uses (30_encoding.md R83). -/
inductive Instr where
  /-- NOP (42_system.md R150). -/
  | nop
  /-- INC reg (41_register_ops.md R130). -/
  | inc (reg : RegIdx)
  /-- DEC reg (41_register_ops.md R131). -/
  | dec (reg : RegIdx)
  /-- DBG reg (42_system.md R151). -/
  | dbg (reg : RegIdx)
  /-- QIT (42_system.md R152). -/
  | qit
  /-- LDC reg, constant (41_register_ops.md R132). -/
  | ldc (reg : RegIdx) (constant : Word)
  /-- CPY reg, source register index, checked at dispatch (41_register_ops.md R133). -/
  | cpy (reg : RegIdx) (source : Word)
  /-- JNZ reg, target instruction index, checked at dispatch (43_jumps.md R171). -/
  | jnz (reg : RegIdx) (target : Word)
  /-- JWZ reg, target instruction index, checked at dispatch (43_jumps.md R172). -/
  | jwz (reg : RegIdx) (target : Word)
  deriving DecidableEq, Repr

/-- The operation of an instruction. -/
def Instr.mnemonic : Instr → Mnemonic
  | .nop => .nop
  | .inc _ => .inc
  | .dec _ => .dec
  | .dbg _ => .dbg
  | .qit => .qit
  | .ldc _ _ => .ldc
  | .cpy _ _ => .cpy
  | .jnz _ _ => .jnz
  | .jwz _ _ => .jwz

end Sys2Proof
end

