-- ==== Sys2Proof/WellFormed.lean ====
section
/-! DEFINITION. Which records encode an instruction (30_encoding.md R79, R80).

An `Instr` needs no check: each operand type holds exactly the values its field can hold, and every one of them is
an instruction (30_encoding.md R77, R78; 10_state.md R23). The range checks on CPY's source and on a jump's target
are made at dispatch, not here (30_encoding.md R78). -/

namespace Sys2Proof

/-- The opcode byte is one of the nine values of an opcode map (30_encoding.md R79). -/
def Record.opcodeLegal (map : Mnemonic → Byte) (r : Record) : Bool :=
  Mnemonic.all.any fun m => map m == r.opcode

/-- The reserved bytes are all zero (30_encoding.md R80). -/
def Record.reservedZero (r : Record) : Bool := r.reserved == 0

/-- The record encodes an instruction (30_encoding.md R78). -/
def Record.wf (map : Mnemonic → Byte) (r : Record) : Bool := r.opcodeLegal map && r.reservedZero

end Sys2Proof
end

