-- ==== Sys2Proof/Decode.lean ====
section
/-! DEFINITION. The decoder and the encoder (30_encoding.md), the byte order of a record, and the opcode table.

DESIGN CHOICE (log entry 6, unsafe for the original's bytes): the opcode map is an argument of `decodeWith` and
`encodeWith`, and the machine uses the default map of 30_encoding.md R74. -/

namespace Sys2Proof

/-- Opcode values (30_encoding.md R74): the default of the parameter `OPCODE_MAP` (92_eei_decisions.md D2). -/
def opcodeMap : Mnemonic → Byte
  | .nop => 0x00
  | .inc => 0x01
  | .dec => 0x02
  | .dbg => 0x03
  | .qit => 0x04
  | .ldc => 0x05
  | .cpy => 0x06
  | .jnz => 0x07
  | .jwz => 0x08

/-! ### Byte order (20_memory.md R53) -/

/-- The value of bytes in little-endian order, `B[0]` first (30_encoding.md R73). -/
def leNat : List Byte → Nat
  | [] => 0
  | b :: bs => b.toNat + 256 * leNat bs

/-- The `n` lowest bytes of a number in little-endian order, `B[0]` first. -/
def leBytes : Nat → Nat → List Byte
  | 0, _ => []
  | n + 1, v => BitVec.ofNat 8 v :: leBytes n (v / 256)

/-- The record word `W` of the 16 bytes of a record (30_encoding.md R73). -/
def recordWord (bytes : List Byte) : RecordWord := BitVec.ofNat 128 (leNat bytes)

/-- The 16 bytes `B[0..15]` of a record word (30_encoding.md R72). -/
def recordBytes (w : RecordWord) : List Byte := leBytes Config.recordSize w.toNat

/-! ### Fields -/

/-- Field extraction from the record word (30_encoding.md R73). -/
def Record.ofWord (w : RecordWord) : Record where
  opcode   := w.extractLsb' 0 8
  reg      := w.extractLsb' 8 8
  reserved := w.extractLsb' 16 48
  argument := w.extractLsb' 64 64

/-- The record word of a record's fields (30_encoding.md R73). -/
def Record.toWord (r : Record) : RecordWord := r.argument ++ r.reserved ++ r.reg ++ r.opcode

/-! ### Decoder -/

/-- Why a record word encodes no instruction (30_encoding.md R78). -/
inductive DecodeError where
  /-- The opcode byte encodes no instruction (30_encoding.md R79). -/
  | illegalOpcode
  /-- A reserved byte is not zero (30_encoding.md R80). -/
  | reservedNonZero
  deriving DecidableEq, Repr

/-- The operation an opcode byte selects, or none (30_encoding.md R74, R79). -/
def opcodeLookup (map : Mnemonic → Byte) (op : Byte) : Option Mnemonic :=
  Mnemonic.all.find? fun m => map m == op

/-- The instruction of an operation with the operands it uses (30_encoding.md R75, R83). -/
def Mnemonic.instr (m : Mnemonic) (r : RegIdx) (a : Word) : Instr :=
  match m with
  | .nop => .nop
  | .inc => .inc r
  | .dec => .dec r
  | .dbg => .dbg r
  | .qit => .qit
  | .ldc => .ldc r a
  | .cpy => .cpy r a
  | .jnz => .jnz r a
  | .jwz => .jwz r a

/-- Decoding of a record's fields: the opcode is checked before the reserved bytes (30_encoding.md R78;
60_exceptions.md R202). -/
def decodeRecord (map : Mnemonic → Byte) (r : Record) : Except DecodeError Instr :=
  match opcodeLookup map r.opcode with
  | none => .error .illegalOpcode
  | some m => if r.reserved = 0 then .ok (m.instr r.reg r.argument) else .error .reservedNonZero

/-- The decoder for an opcode map (30_encoding.md R78 with the parameter `OPCODE_MAP` of 92_eei_decisions.md D2). -/
def decodeWith (map : Mnemonic → Byte) (w : RecordWord) : Except DecodeError Instr :=
  decodeRecord map (Record.ofWord w)

/-- `Decode(W)` (30_encoding.md R78). -/
def decode (w : RecordWord) : Except DecodeError Instr := decodeWith opcodeMap w

/-- Why a list of bytes does not begin with an instruction. -/
inductive BytesError where
  /-- Fewer than 16 bytes are left: no record (20_memory.md R54; DESIGN CHOICE, log entry 7, safe). -/
  | partialRecord
  /-- The first record does not decode. -/
  | undecodable (e : DecodeError)
  deriving DecidableEq, Repr

/-- Decoding of any bytes: the first record's instruction and the bytes after it (30_encoding.md R71, R82). -/
def decodeBytes (bytes : List Byte) : Except BytesError (Instr × List Byte) :=
  if bytes.length < Config.recordSize then .error .partialRecord
  else
    match decode (recordWord (bytes.take Config.recordSize)) with
    | .error e => .error (.undecodable e)
    | .ok i => .ok (i, bytes.drop Config.recordSize)

/-! ### Encoder -/

/-- The fields `Encode(op, r, a)` puts together (30_encoding.md R84). -/
def Record.make (map : Mnemonic → Byte) (m : Mnemonic) (r : RegIdx) (a : Word) : Record where
  opcode   := map m
  reg      := r
  reserved := 0
  argument := a

/-- `Encode(op, r, a)`: the program construction helper (30_encoding.md R84), as the 16 bytes of the record. -/
def makeRecord (m : Mnemonic) (r : RegIdx) (a : Word) : List Byte :=
  recordBytes (Record.make opcodeMap m r a).toWord

/-- The record of an instruction; the fields it does not use are zero (30_encoding.md R84, R85; DEDUCED, safe, log
entry 13). -/
def Instr.toRecord (map : Mnemonic → Byte) : Instr → Record
  | .nop => Record.make map .nop 0 0
  | .inc r => Record.make map .inc r 0
  | .dec r => Record.make map .dec r 0
  | .dbg r => Record.make map .dbg r 0
  | .qit => Record.make map .qit 0 0
  | .ldc r a => Record.make map .ldc r a
  | .cpy r a => Record.make map .cpy r a
  | .jnz r k => Record.make map .jnz r k
  | .jwz r k => Record.make map .jwz r k

/-- The encoder for an opcode map. -/
def encodeWith (map : Mnemonic → Byte) (i : Instr) : RecordWord := (i.toRecord map).toWord

/-- The record word of an instruction. -/
def encode (i : Instr) : RecordWord := encodeWith opcodeMap i

/-- The bytes of a sequence of instructions: a program buffer (20_memory.md R51). -/
def encodeProgram (is : List Instr) : List Byte := is.flatMap fun i => recordBytes (encode i)

/-! ### The opcode table -/

/-- A row of spec/opcode_table.json: the record words `w` with `w &&& mask = pattern`. -/
structure OpcodeRow where
  mnemonic : Mnemonic
  pattern  : RecordWord
  mask     : RecordWord
  deriving DecidableEq, Repr

/-- The mask of every row: the opcode byte and the six reserved bytes. -/
def opcodeRowMask : RecordWord := 0x0000000000000000FFFFFFFFFFFF00FF

/-- spec/opcode_table.json. -/
def opcodeTable : List OpcodeRow :=
  [⟨.nop, 0x00, opcodeRowMask⟩, ⟨.inc, 0x01, opcodeRowMask⟩, ⟨.dec, 0x02, opcodeRowMask⟩,
   ⟨.dbg, 0x03, opcodeRowMask⟩, ⟨.qit, 0x04, opcodeRowMask⟩, ⟨.ldc, 0x05, opcodeRowMask⟩,
   ⟨.cpy, 0x06, opcodeRowMask⟩, ⟨.jnz, 0x07, opcodeRowMask⟩, ⟨.jwz, 0x08, opcodeRowMask⟩]

/-- The record word of a number of `nbits` bits in the numbering of spec/opcode_table.json, the bits above zero. -/
def tableWord (nbits w : Nat) : RecordWord := BitVec.ofNat 128 (w % 2 ^ nbits)

/-- The instruction the decoder reads from a table word laid out as the hardware stores it. -/
def decodeTableWord (nbits w : Nat) : Option Instr :=
  match decodeBytes (recordBytes (tableWord nbits w)) with
  | .error _ => none
  | .ok (i, _) => some i

end Sys2Proof
end

