-- ==== Sys2Proof/Machine/State.lean ====
section
/-! DEFINITION. The state of the core (10_state.md), its reset, and the reasons a step can stop. -/

namespace Sys2Proof.Machine

/-- The program buffer's bytes (20_memory.md R51): byte address `16 * k + j` is byte `j` of record `k`. In canonical
form: addresses strictly rising, and no entry equal to what an unlisted address reads as. -/
abbrev Memory := List Host.Cell

/-- What an unlisted byte of the buffer holds. DESIGN CHOICE, unsafe (log entry 5): a buffer's zero bytes are the ones
not listed. -/
def Memory.unlisted : Byte := 0

/-- Addresses rise from `lo` on and no entry holds the unlisted value. -/
def Memory.wfFrom : Nat → Memory → Bool
  | _, [] => true
  | lo, (a, b) :: rest => decide (lo ≤ a) && b != Memory.unlisted && Memory.wfFrom (a + 1) rest

/-- The canonical form. -/
def Memory.wf (m : Memory) : Bool := Memory.wfFrom 0 m

/-- Every listed byte lies in a buffer of `n` records (20_memory.md R51). -/
def Memory.within (n : Nat) (m : Memory) : Bool := m.all fun c => decide (c.1 < Config.recordSize * n)

/-- The state of the core: exactly the state of 10_state.md R20, and the program `P` and its length `N`, which are
bound at reset and never written (R36; DESIGN CHOICE, safe, log entry 1). -/
@[ext]
structure State where
  /-- The general registers `x[0..255]` (10_state.md R21). -/
  x : Vector Word Config.registerCount
  /-- The program counter, in instructions (10_state.md R28). -/
  pc : Word
  /-- The run flag (10_state.md R30). -/
  running : Bool
  /-- The fault status register (10_state.md R31). -/
  fault : BitVec 3
  /-- The output stream, oldest value first (10_state.md R32). -/
  out : List Word
  /-- The program buffer `P` (10_state.md R36). -/
  mem : Memory
  /-- The program length `N` in records (10_state.md R36, R37). -/
  progLen : Word
  deriving DecidableEq, Repr

/-- Reset with a program: the creation of a Context (10_state.md R39, 70_reset_and_hazards.md R230). -/
def State.resetWith (mem : Memory) (progLen : Word) : State where
  x       := Vector.replicate Config.registerCount 0
  pc      := 0
  running := true
  fault   := 0
  out     := []
  mem     := mem
  progLen := progLen

/-- The machine right after reset with no program given: the empty program (DESIGN CHOICE, unsafe, log entry 2). -/
def State.reset : State := State.resetWith [] 0

/-- Why the machine has no step. Faults of the spec are not among these: fault entry is a next state
(60_exceptions.md R201). -/
inductive Fault where
  /-- Raised by `step` in `Halted`, by no instruction: the core has no step (40_execution_cycle.md R100). Safe. -/
  | halted
  /-- Raised by `step` in `Faulted`, by no instruction: the core has no step (40_execution_cycle.md R100). Safe. -/
  | faulted
  deriving DecidableEq, Repr

/-- What the model gives no meaning to. -/
inductive Refusal where
  /-- Raised by an arm of `exec` whose instruction has no meaning yet; no arm raises it. Safe. -/
  | notModelled (mnemonic : String)
  /-- Raised by `step` where `running = 1` and `fault != 0`, which no run reaches (10_state.md R33,
  93_implementation_defined.md I7). Safe. -/
  | unreachableRunState
  deriving DecidableEq, Repr

end Sys2Proof.Machine
end

