-- ==== Sys2Proof/Machine/Flags.lean ====
section
/-! DEFINITION. The run flag, the fault status and the run state. The core has no arithmetic flags and no condition
codes (10_state.md R34, 41_register_ops.md R134). -/

namespace Sys2Proof.Machine

/-- The fault causes (60_exceptions.md R200). -/
inductive Cause where
  | illegalOpcode
  | reservedNonZero
  | sourceRegisterOutOfRange
  | jumpTargetOutOfRange
  deriving DecidableEq, Repr

/-- The code of a cause in `fault` (60_exceptions.md R200). -/
def Cause.code : Cause → BitVec 3
  | .illegalOpcode => 1
  | .reservedNonZero => 2
  | .sourceRegisterOutOfRange => 3
  | .jumpTargetOutOfRange => 4

/-- The cause a decode error raises (40_execution_cycle.md R104). -/
def causeOf : DecodeError → Cause
  | .illegalOpcode => .illegalOpcode
  | .reservedNonZero => .reservedNonZero

/-- The states of the execution state machine (40_execution_cycle.md R100). -/
inductive RunState where
  | running | halted | faulted
  deriving DecidableEq, Repr

/-- The run state as a function of `running` and `fault`; none where the pair is unreachable (10_state.md R33). -/
def State.runState (s : State) : Option RunState :=
  if s.running then
    if s.fault = 0 then some .running else none
  else
    if s.fault = 0 then some .halted else some .faulted

end Sys2Proof.Machine
end

