-- ==== Sys2Proof/Machine/Ops.lean ====
section
/-! DEFINITION. The named operations over the program buffer, the registers, the output and the run state. -/

namespace Sys2Proof.Machine

/-! ### Program buffer -/

/-- The byte at an address of the buffer. -/
def Memory.read : Memory → Nat → Byte
  | [], _ => Memory.unlisted
  | (a, b) :: rest, k => if k = a then b else Memory.read rest k

/-- Storing a byte while a buffer is built; the canonical form is kept. No instruction stores (20_memory.md R50). -/
def Memory.write : Memory → Nat → Byte → Memory
  | [], k, v => if v = Memory.unlisted then [] else [(k, v)]
  | (a, b) :: rest, k, v =>
    if k < a then
      if v = Memory.unlisted then (a, b) :: rest else (k, v) :: (a, b) :: rest
    else if k = a then
      if v = Memory.unlisted then rest else (k, v) :: rest
    else
      (a, b) :: Memory.write rest k v

/-- Storing bytes at rising addresses from `a` on. -/
def Memory.writeBytes : Memory → Nat → List Byte → Memory
  | m, _, [] => m
  | m, a, b :: bs => Memory.writeBytes (Memory.write m a b) (a + 1) bs

/-- The `n` bytes from address `a` on. -/
def Memory.readBytes (m : Memory) : Nat → Nat → List Byte
  | _, 0 => []
  | a, n + 1 => Memory.read m a :: Memory.readBytes m (a + 1) n

/-- `Fetch(k)`: the record word of record `k`, bytes `16*k` to `16*k + 15` (20_memory.md R51, R52). -/
def Memory.fetch (m : Memory) (k : Word) : RecordWord :=
  recordWord (Memory.readBytes m (Config.recordSize * k.toNat) Config.recordSize)

/-- Placing a record word as record `k` of a buffer that is built outside a run. -/
def Memory.placeRecord (m : Memory) (k : Word) (w : RecordWord) : Memory :=
  Memory.writeBytes m (Config.recordSize * k.toNat) (recordBytes w)

/-- The record at `pc` (40_execution_cycle.md R103). -/
def State.fetchRecord (s : State) : RecordWord := Memory.fetch s.mem s.pc

/-! ### Registers and output -/

/-- `x[i]` (00_scope.md R9, 10_state.md R25). -/
def State.readReg (s : State) (i : RegIdx) : Word := s.x[i.toNat]'i.isLt

/-- `x[i] <- v` (00_scope.md R9, 10_state.md R25). -/
def State.writeReg (s : State) (i : RegIdx) (v : Word) : State := { s with x := s.x.set i.toNat v i.isLt }

/-- `Emit(v)` (00_scope.md R9, 10_state.md R32). -/
def State.emit (s : State) (v : Word) : State := { s with out := s.out ++ [v] }

/-! ### Faults -/

/-- Fault entry (60_exceptions.md R201): the run flag falls, the code is reported, all else is kept, and neither the
advance nor the boundary check follows. There is no return from a fault (R204). -/
def State.raise (s : State) (c : Cause) : State := { s with running := false, fault := c.code }

/-! ### Halt, advance and boundary check -/

/-- `running <- 0` (42_system.md R152; 40_execution_cycle.md R108, R109). -/
def State.halt (s : State) : State := { s with running := false }

/-- `pc <- target` (00_scope.md R9; 43_jumps.md R171, R172). -/
def State.setPc (s : State) (target : Word) : State := { s with pc := target }

/-- The advance: `pc <- pc + 1` unless the instruction halted or jumped (40_execution_cycle.md R107).
DESIGN CHOICE, safe (log entry 14): the addition is modulo `2^64`, which only a `pc` that no run reaches can show
(10_state.md R29). -/
def State.advance (s : State) (jumped : Bool) : State :=
  if s.running && !jumped then s.setPc (s.pc + 1) else s

/-- The boundary check (40_execution_cycle.md R108). -/
def State.boundaryCheck (s : State) : State := if s.pc < s.progLen then s else s.halt

/-- What follows an instruction's effect in its step: advance, then boundary check (40_execution_cycle.md R102, steps 4
and 5). `jumped` is the signal internal to the step (R106). -/
def State.complete (s : State) (jumped : Bool) : State := (s.advance jumped).boundaryCheck

end Sys2Proof.Machine
end

