-- ==== Sys2Proof/Machine/Operands.lean ====
section
/-! DEFINITION. The operand forms (30_encoding.md R75, R76, R77). The `reg` field is used directly as a register index
(`State.readReg`, `State.writeReg`); the 64-bit `argument` is used in three ways. -/

namespace Sys2Proof.Machine

/-- The argument as LDC's immediate: unchanged (30_encoding.md R76). -/
def immediate (arg : Word) : Word := arg

/-- The argument as CPY's source register index, compared with 256 at its full width (30_encoding.md R76,
41_register_ops.md R133); none where it is out of range. -/
def sourceRegister (arg : Word) : Option RegIdx :=
  if arg.toNat < Config.registerCount then some (BitVec.ofNat 8 arg.toNat) else none

/-- The argument as a jump target, compared with `N` at its full width (43_jumps.md R170); none where it is out of
range. A target is an instruction index, with no scaling (30_encoding.md R76). -/
def jumpTarget (s : State) (arg : Word) : Option Word :=
  if arg.toNat < s.progLen.toNat then some arg else none

end Sys2Proof.Machine
end

