-- ==== Sys2Proof/Machine/Jumps.lean ====
section
/-! DEFINITION. JNZ and JWZ (43_jumps.md). -/

namespace Sys2Proof.Machine

/-- A conditional jump: the target is checked before the condition, whatever its outcome (43_jumps.md R170); a taken
jump sets `pc` to the target and no increment follows (40_execution_cycle.md R107, 90_conflicts.md C1). -/
def jumpWhen (taken : Word → Bool) (r : RegIdx) (k : Word) (s : State) : Host.Outcome State Fault Refusal :=
  match jumpTarget s k with
  | none => .next (s.raise .jumpTargetOutOfRange)
  | some target =>
    if taken (s.readReg r) then .next ((s.setPc target).complete true) else .next (s.complete false)

/-- JNZ (43_jumps.md R171). -/
def execJnz (r : RegIdx) (k : Word) (s : State) : Host.Outcome State Fault Refusal :=
  jumpWhen (fun v => v != 0) r k s

/-- JWZ (43_jumps.md R172). -/
def execJwz (r : RegIdx) (k : Word) (s : State) : Host.Outcome State Fault Refusal :=
  jumpWhen (fun v => v == 0) r k s

end Sys2Proof.Machine
end

