-- ==== Sys2Proof/Machine/RegisterOps.lean ====
section
/-! DEFINITION. INC, DEC, LDC and CPY (41_register_ops.md). Each meaning is an instruction's effect with the advance and
the boundary check of its step (log entry 8). -/

namespace Sys2Proof.Machine

/-- INC (41_register_ops.md R130). -/
def execInc (r : RegIdx) (s : State) : Host.Outcome State Fault Refusal :=
  .next ((s.writeReg r (s.readReg r + 1)).complete false)

/-- DEC (41_register_ops.md R131). -/
def execDec (r : RegIdx) (s : State) : Host.Outcome State Fault Refusal :=
  .next ((s.writeReg r (s.readReg r - 1)).complete false)

/-- LDC (41_register_ops.md R132). -/
def execLdc (r : RegIdx) (a : Word) (s : State) : Host.Outcome State Fault Refusal :=
  .next ((s.writeReg r (immediate a)).complete false)

/-- CPY (41_register_ops.md R133): the range check comes before any write. -/
def execCpy (r : RegIdx) (a : Word) (s : State) : Host.Outcome State Fault Refusal :=
  match sourceRegister a with
  | none => .next (s.raise .sourceRegisterOutOfRange)
  | some q => .next ((s.writeReg r (s.readReg q)).complete false)

end Sys2Proof.Machine
end

