-- ==== Sys2Proof/Machine/SystemOps.lean ====
section
/-! DEFINITION. NOP, DBG and QIT (42_system.md). -/

namespace Sys2Proof.Machine

/-- NOP (42_system.md R150). -/
def execNop (s : State) : Host.Outcome State Fault Refusal := .next (s.complete false)

/-- DBG (42_system.md R151). -/
def execDbg (r : RegIdx) (s : State) : Host.Outcome State Fault Refusal :=
  .next ((s.emit (s.readReg r)).complete false)

/-- QIT (42_system.md R152): the run flag falls, so the advance leaves `pc` at the QIT. -/
def execQit (s : State) : Host.Outcome State Fault Refusal := .next (s.halt.complete false)

end Sys2Proof.Machine
end

