-- ==== Sys2Proof/Machine/Dispatch.lean ====
section
/-! DEFINITION. The dispatcher: an exhaustive match over the nine operations (40_execution_cycle.md R105). -/

namespace Sys2Proof.Machine

def exec (i : Instr) (s : State) : Host.Outcome State Fault Refusal :=
  match i with
  | .nop => Sys2Proof.Machine.execNop s
  | .inc r => Sys2Proof.Machine.execInc r s
  | .dec r => Sys2Proof.Machine.execDec r s
  | .dbg r => Sys2Proof.Machine.execDbg r s
  | .qit => Sys2Proof.Machine.execQit s
  | .ldc r a => Sys2Proof.Machine.execLdc r a s
  | .cpy r a => Sys2Proof.Machine.execCpy r a s
  | .jnz r k => Sys2Proof.Machine.execJnz r k s
  | .jwz r k => Sys2Proof.Machine.execJwz r k s

end Sys2Proof.Machine
end

