-- ==== Sys2Proof/Machine/RunLoop.lean ====
section
/-! DEFINITION. The Run Loop: one step from fetch to boundary check (40_execution_cycle.md R102), and placing an
instruction where the next step fetches it. -/

namespace Sys2Proof.Machine

/-- Decode and dispatch of the record at `pc`; a decode error is a fault entry and nothing below it happens
(40_execution_cycle.md R103, R104, R105). -/
def runRecord (s : State) : Host.Outcome State Fault Refusal :=
  match decode s.fetchRecord with
  | .error e => .next (s.raise (causeOf e))
  | .ok i => exec i s

/-- A step of a `Running` core: the end check comes before the fetch (40_execution_cycle.md R109). -/
def runningStep (s : State) : Host.Outcome State Fault Refusal :=
  if s.pc < s.progLen then runRecord s else .next s.halt

/-- A step is possible only in `Running` (40_execution_cycle.md R100). DEDUCED, safe (log entries 3, 4): `Halted` and
`Faulted` have no step, which is a named fault here, and the unreachable pair is refused. -/
def runLoopStep (s : State) : Host.Outcome State Fault Refusal :=
  match s.runState with
  | some .running => runningStep s
  | some .halted => .fault .halted
  | some .faulted => .fault .faulted
  | none => .refused .unreachableRunState

/-- Where an instruction placed for the next fetch stands: at `pc`, or at index 0 where `pc` is `2^64 - 1`, at which no
program of at most `2^64 - 1` records has an instruction (00_scope.md R7). -/
def placedIndex (pc : Word) : Word := if pc = BitVec.allOnes 64 then 0 else pc

/-- The state with a record word placed where the next step fetches, in a `Running` core whose program reaches that far.
DESIGN CHOICE, safe (log entry 9): it stands for the load of a program from outside. -/
def placeFetchWord (s : State) (w : RecordWord) : State :=
  let k := placedIndex s.pc
  { s with
    pc := k
    running := true
    fault := 0
    mem := Memory.placeRecord s.mem k w
    progLen := if k < s.progLen then s.progLen else k + 1 }

end Sys2Proof.Machine
end

