-- ==== Sys2Proof/Machine/Step.lean ====
section
/-! DEFINITION. One step of the core (40_execution_cycle.md R102). -/

namespace Sys2Proof.Machine

/-- `Step()` (40_execution_cycle.md R102). -/
def step (s : State) : Host.Outcome State Fault Refusal := runLoopStep s

/-- `s` with the table word stored where `step` fetches its next instruction. -/
def State.withFetchWord (s : State) (nbits w : Nat) : State := placeFetchWord s (tableWord nbits w)

end Sys2Proof.Machine
end

