-- ==== Sys2Proof/Machine/Assembly.lean ====
section
/-! DEFINITION. The assembly notation of an instruction (00_scope.md R10, 30_encoding.md R85). The parser is outside the
scope (00_scope.md R5). DESIGN CHOICE, safe (log entry 11): numbers are written in decimal. -/

namespace Sys2Proof.Machine

/-- `rR`: the name of a register (10_state.md R21). -/
def regName (r : RegIdx) : String := "r" ++ toString r.toNat

/-- CPY's second operand: `rS` where it names a register, else the number (30_encoding.md R85). -/
def sourceText (a : Word) : String :=
  match sourceRegister a with
  | some q => regName q
  | none => toString a.toNat

/-- A statement of the assembly syntax (30_encoding.md R85). -/
def asmText : Instr → String
  | .nop => "NOP"
  | .inc r => "INC " ++ regName r
  | .dec r => "DEC " ++ regName r
  | .dbg r => "DBG " ++ regName r
  | .qit => "QIT"
  | .ldc r a => "LDC " ++ regName r ++ ", " ++ toString a.toNat
  | .cpy r a => "CPY " ++ regName r ++ ", " ++ sourceText a
  | .jnz r k => "JNZ " ++ regName r ++ ", " ++ toString k.toNat
  | .jwz r k => "JWZ " ++ regName r ++ ", " ++ toString k.toNat

end Sys2Proof.Machine
end

