-- ==== Sys2Proof/Machine/HostPort.lean ====
section
/-! DEFINITION. What the host can do to the core and see of it (10_state.md R27, R37, R38; 60_exceptions.md R206;
70_reset_and_hazards.md R230, R231). None of it is a step: the core reads no input but the fetched record
(40_execution_cycle.md R112). DESIGN CHOICE, safe (log entry 12): a request the interface refuses answers an error. -/

namespace Sys2Proof.Machine

/-! ### Building a program buffer, and reset -/

/-- Why a buffer is rejected when it is built; no code is written to `fault` (60_exceptions.md R206). -/
inductive BuildError where
  /-- The byte length is no multiple of the record size (20_memory.md R54). -/
  | partialRecord
  /-- More than `2^64 - 1` records (00_scope.md R7; DEDUCED, safe, log entry 10). -/
  | tooLong
  deriving DecidableEq, Repr

/-- A program buffer and its length in records, from the buffer's bytes (20_memory.md R51, R54). -/
def buildProgram (bytes : List Byte) : Except BuildError (Memory × Word) :=
  if bytes.length % Config.recordSize ≠ 0 then .error .partialRecord
  else if Config.programLengthBound ≤ bytes.length / Config.recordSize then .error .tooLong
  else .ok (Memory.writeBytes [] 0 bytes, BitVec.ofNat 64 (bytes.length / Config.recordSize))

/-- `create(program) -> Context` (70_reset_and_hazards.md R230, R231): build the buffer, then reset with it. -/
def create (bytes : List Byte) : Except BuildError State :=
  match buildProgram bytes with
  | .error e => .error e
  | .ok (m, n) => .ok (State.resetWith m n)

/-- The `reset` and `prog_len` ports: accepted in any run state, and all previous state is discarded
(70_reset_and_hazards.md R230, 10_state.md R37). -/
def applyReset (_previous : State) (mem : Memory) (progLen : Word) : State := State.resetWith mem progLen

/-! ### Ports -/

/-- This step fetches a record (40_execution_cycle.md R103, R109, R114). -/
def fetchesRecord (s : State) : Bool := s.runState == some .running && decide (s.pc < s.progLen)

/-- The `imem_index` port in a step that fetches (10_state.md R37). -/
def imemIndex (s : State) : Option Word := if fetchesRecord s then some s.pc else none

/-- The `imem_rdata` port in a step that fetches (10_state.md R37). -/
def imemRdata (s : State) : Option RecordWord := if fetchesRecord s then some s.fetchRecord else none

/-- The `dbg_valid` and `dbg_data` ports: a value in exactly the steps that execute DBG (10_state.md R37,
42_system.md R151). -/
def dbgPort (s : State) : Option Word :=
  if fetchesRecord s then
    match decode s.fetchRecord with
    | .ok (.dbg r) => some (s.readReg r)
    | _ => none
  else none

/-- The `running` port, which the host may watch at any time (10_state.md R38). -/
def runningPort (s : State) : Bool := s.running

/-- Why a request of the host is refused at the interface, with no change to any state. -/
inductive PortRefusal where
  /-- A read of `pc_out`, `reg_rd_data` or `fault` while `running = 1` is not part of the model (10_state.md R38,
  93_implementation_defined.md I17). -/
  | coreRunning
  /-- A register index of 256 or more (10_state.md R27, 93_implementation_defined.md I8). -/
  | indexOutOfRange
  deriving DecidableEq, Repr

/-- A value that the host may read only once the core has stopped (10_state.md R38). -/
def whenStopped {α : Type} (s : State) (v : α) : Except PortRefusal α :=
  if s.running then .error .coreRunning else .ok v

/-- The `pc_out` port (10_state.md R37, R38). -/
def pcOutPort (s : State) : Except PortRefusal Word := whenStopped s s.pc

/-- The `fault` port (10_state.md R37, R38). -/
def faultPort (s : State) : Except PortRefusal (BitVec 3) := whenStopped s s.fault

/-- The register read port, `reg_rd_index` and `reg_rd_data`, for a request of any index (10_state.md R27, R37,
R38). -/
def regReadPort (s : State) (index : Nat) : Except PortRefusal Word :=
  if index < Config.registerCount then whenStopped s (s.readReg (BitVec.ofNat 8 index))
  else .error .indexOutOfRange

end Sys2Proof.Machine
end

