-- ==== Sys2Proof/Safety.lean ====
section
/-! DEFINITION. Runs, how they end, the launch premises, and the invariant of the machine, in the terms statements
use. -/

namespace Sys2Proof.Machine

/-! ### The record word read as a number (30_encoding.md R73) -/

/-- `W[7:0]`. -/
def wordOpcode (w : RecordWord) : Nat := w.toNat % 2 ^ 8

/-- `W[15:8]`. -/
def wordReg (w : RecordWord) : RegIdx := BitVec.ofNat 8 (w.toNat / 2 ^ 8)

/-- `W[63:16]`. -/
def wordReserved (w : RecordWord) : Nat := w.toNat / 2 ^ 16 % 2 ^ 48

/-- `W[127:64]`. -/
def wordArgument (w : RecordWord) : Word := BitVec.ofNat 64 (w.toNat / 2 ^ 64)

/-- The word of a record with these fields and zero in the reserved bytes. -/
def IsRecord (w : RecordWord) (op : Nat) (r : RegIdx) (a : Word) : Prop :=
  w.toNat = op + 2 ^ 8 * r.toNat + 2 ^ 64 * a.toNat

/-! ### Registers read and written (10_state.md R24) -/

/-- The register an instruction writes. -/
def destOf : Instr → Option RegIdx
  | .nop => none
  | .inc r => some r
  | .dec r => some r
  | .dbg _ => none
  | .qit => none
  | .ldc r _ => some r
  | .cpy r _ => some r
  | .jnz _ _ => none
  | .jwz _ _ => none

/-- The register an instruction reads; CPY's out-of-range source names none. -/
def sourceOf : Instr → Option RegIdx
  | .nop => none
  | .inc r => some r
  | .dec r => some r
  | .dbg r => some r
  | .qit => none
  | .ldc _ _ => none
  | .cpy _ a => if a.toNat < 256 then some (BitVec.ofNat 8 a.toNat) else none
  | .jnz r _ => some r
  | .jwz r _ => some r

/-- The target of a taken jump (43_jumps.md R171, R172; glossary). -/
def takenTarget (s : State) : Instr → Option Word
  | .nop => none
  | .inc _ => none
  | .dec _ => none
  | .dbg _ => none
  | .qit => none
  | .ldc _ _ => none
  | .cpy _ _ => none
  | .jnz r k => if s.readReg r = 0 then none else some k
  | .jwz r k => if s.readReg r = 0 then some k else none

/-! ### Steps and runs -/

/-- The next state, where an outcome has one. -/
def nextState? : Host.Outcome State Fault Refusal → Option State
  | .next t => some t
  | .fault _ => none
  | .refused _ => none

/-- The core is `Running` and its step fetches a record: the condition under which an instruction executes
(40_execution_cycle.md R102, R109). -/
def CanExecute (s : State) : Prop := s.running = true ∧ s.fault = 0 ∧ s.pc < s.progLen

/-- The instruction that the step at `s` executes is `i` (40_execution_cycle.md R103, R104). -/
def Executes (s : State) (i : Instr) : Prop := CanExecute s ∧ decode s.fetchRecord = .ok i

/-- The state after `n` steps, where all of them exist. -/
def runFor : Nat → State → Option State
  | 0, s => some s
  | n + 1, s =>
    match step s with
    | .next t => runFor n t
    | .fault _ => none
    | .refused _ => none

/-- `t` is reached from `s` by steps. -/
def Reaches (s t : State) : Prop := ∃ n, runFor n s = some t

/-- A run from `s` ends normally in `t` (40_execution_cycle.md R113). -/
def EndsNormally (s t : State) : Prop := Reaches s t ∧ t.runState = some .halted

/-- A run from `s` ends in error in `t` (40_execution_cycle.md R113). -/
def EndsInError (s t : State) : Prop := Reaches s t ∧ t.runState = some .faulted

/-- A run from `s` is an infinite sequence of steps (40_execution_cycle.md R110, R113). -/
def RunsForever (s : State) : Prop := ∀ n, ∃ t, runFor n s = some t ∧ t.runState = some .running

/-- How many of the first `n` steps from `s` execute an instruction: those that fetch a record, a faulting one among
them (40_execution_cycle.md R114). -/
def executedCount : Nat → State → Nat
  | 0, _ => 0
  | n + 1, s =>
    (if fetchesRecord s then 1 else 0) +
      match step s with
      | .next t => executedCount n t
      | .fault _ => 0
      | .refused _ => 0

/-- The values the first `n` steps from `s` put on the DBG port, in execution order (10_state.md R32, R37). -/
def dbgValues : Nat → State → List Word
  | 0, _ => []
  | n + 1, s =>
    (dbgPort s).toList ++
      match step s with
      | .next t => dbgValues n t
      | .fault _ => []
      | .refused _ => []

/-- A run from `s` is safe where no state it reaches is `Faulted`. -/
def SafeRun (s : State) : Prop := ∀ t, Reaches s t → t.fault = 0

/-! ### Launch premises (70_reset_and_hazards.md R233) -/

/-- `BufferLengthValid`: the byte length is `16 * N` with `N <= 2^64 - 1`. -/
def BufferLengthValid (bytes : List Byte) : Prop :=
  ∃ n, bytes.length = Config.recordSize * n ∧ n < Config.programLengthBound

/-- `ProgramWellFormed`: every record of the program decodes. -/
def ProgramWellFormed (mem : Memory) (progLen : Word) : Prop :=
  ∀ k, k < progLen → ∃ i, decode (Memory.fetch mem k) = .ok i

/-- `ProgramStable`: the program is the same in both states. -/
def ProgramStable (s t : State) : Prop :=
  t.progLen = s.progLen ∧ t.mem = s.mem ∧ ∀ a, Memory.read t.mem a = Memory.read s.mem a

/-- `CleanReset`: the state is the reset state of its program. -/
def CleanReset (s : State) : Prop := s = State.resetWith s.mem s.progLen

/-! ### What a step leaves unchanged -/

/-- Every register but those in `except` is unchanged. -/
def RegistersKept (except : List RegIdx) (s t : State) : Prop :=
  ∀ j, j ∉ except → t.readReg j = s.readReg j

/-- After an instruction that neither halts nor jumps: `pc` is one more, never wrapped, and the core goes on exactly
where the new `pc` is inside the program (40_execution_cycle.md R107, R108). -/
def Advanced (s t : State) : Prop :=
  t.pc.toNat = s.pc.toNat + 1 ∧ t.fault = s.fault ∧ (t.running = true ↔ t.pc.toNat < s.progLen.toNat)

/-- Fault entry with a code: the code is reported, the core stops, and `pc`, the registers, `out` and the program are
unchanged (60_exceptions.md R201). -/
def FaultEntered (code : BitVec 3) (s t : State) : Prop :=
  t.fault = code ∧ t.running = false ∧ t.pc = s.pc ∧ RegistersKept [] s t ∧ t.out = s.out ∧ ProgramStable s t

/-! ### The invariant -/

/-- The program is in canonical form and lies inside its buffer. -/
def ProgramOk (mem : Memory) (progLen : Word) : Prop :=
  Memory.wf mem = true ∧ Memory.within progLen.toNat mem = true

/-- The invariant of every run: the program is canonical; `pc` is at most `N` (10_state.md R29); `fault` holds no
reserved code (60_exceptions.md R200); while `running` is true `fault` is 0 (10_state.md R33) and `pc` is inside the
program, but for the first step of the empty program (40_execution_cycle.md R109). -/
structure Inv (s : State) : Prop where
  program : ProgramOk s.mem s.progLen
  pcLe    : s.pc ≤ s.progLen
  codes   : s.fault ≤ 4
  status  : s.running = true → s.fault = 0
  inside  : s.running = true → s.pc < s.progLen ∨ (s.progLen = 0 ∧ s.pc = 0)

end Sys2Proof.Machine
end

