-- ==== Sys2Proof/Certificates/Slice0/Obligations.lean ====
section
/-! DEFINITION. The statements for the provers, each after the rules of spec/ it formalises. -/

open Sys2Proof Sys2Proof.Machine

/-! ### Encoding and decoding -/

/-- Words written out from the encodings of 30_encoding.md R72 to R74 (95_test_vectors.md L2-1). -/
def Obligations.WrittenWordsDecode : Prop :=
  decode 0x00000000000000000000000000002A01 = .ok (.inc 42) ∧
  decode 0x0123456789ABCDEF0000000000000105 = .ok (.ldc 1 0x0123456789ABCDEF) ∧
  decode 0x00000000000001000000000000000206 = .ok (.cpy 2 256) ∧
  decode 0x00000000000000070000000000000308 = .ok (.jwz 3 7) ∧
  decode 0xFFFFFFFFFFFFFFFF000000000000FF00 = .ok .nop ∧
  decode 0x0000000000000000000000000001000A = .error .illegalOpcode ∧
  decode 0x00000000000000008000000000000004 = .error .reservedNonZero

/-- 30_encoding.md R73: the record word is the little-endian value of the 16 bytes of record `pc`, its fields are the
bits R73 names, and it is the word on the `imem_rdata` port. -/
def Obligations.FetchReadsRecordLittleEndian : Prop :=
  (∀ s : State, s.fetchRecord.toNat =
    ((List.range 16).map fun j => (Memory.read s.mem (16 * s.pc.toNat + j)).toNat * 2 ^ (8 * j)).sum) ∧
  (∀ w : RecordWord, (Record.ofWord w).opcode.toNat = w.toNat % 2 ^ 8 ∧
    (Record.ofWord w).reg.toNat = w.toNat / 2 ^ 8 % 2 ^ 8 ∧
    (Record.ofWord w).reserved.toNat = w.toNat / 2 ^ 16 % 2 ^ 48 ∧
    (Record.ofWord w).argument.toNat = w.toNat / 2 ^ 64) ∧
  (∀ s : State, CanExecute s → imemIndex s = some s.pc ∧ imemRdata s = some s.fetchRecord)

/-- 30_encoding.md R78: the decoder answers, for every word, what the case table gives. -/
def Obligations.DecoderFollowsTheCaseTable : Prop :=
  ∀ w : RecordWord,
    (9 ≤ wordOpcode w → decode w = .error .illegalOpcode) ∧
    (wordOpcode w < 9 → wordReserved w ≠ 0 → decode w = .error .reservedNonZero) ∧
    (wordReserved w = 0 →
      (wordOpcode w = 0x00 → decode w = .ok .nop) ∧
      (wordOpcode w = 0x01 → decode w = .ok (.inc (wordReg w))) ∧
      (wordOpcode w = 0x02 → decode w = .ok (.dec (wordReg w))) ∧
      (wordOpcode w = 0x03 → decode w = .ok (.dbg (wordReg w))) ∧
      (wordOpcode w = 0x04 → decode w = .ok .qit) ∧
      (wordOpcode w = 0x05 → decode w = .ok (.ldc (wordReg w) (wordArgument w))) ∧
      (wordOpcode w = 0x06 → decode w = .ok (.cpy (wordReg w) (wordArgument w))) ∧
      (wordOpcode w = 0x07 → decode w = .ok (.jnz (wordReg w) (wordArgument w))) ∧
      (wordOpcode w = 0x08 → decode w = .ok (.jwz (wordReg w) (wordArgument w))))

/-- 30_encoding.md R84: the bytes of `Encode(op, r, a)`, and decoding them gives the operation with the fields it uses. -/
def Obligations.EncodeThenDecodeReturnsTheInstruction : Prop :=
  ∀ (m : Mnemonic) (r : RegIdx) (a : Word),
    makeRecord m r a =
      [opcodeMap m, r] ++ List.replicate 6 0 ++ (List.range 8).map (fun j => a.extractLsb' (8 * j) 8) ∧
    decode (recordWord (makeRecord m r a)) = .ok (m.instr r a)

/-- For every injective opcode map (the parameter `OPCODE_MAP`, 92_eei_decisions.md D2; log entry 6), decoding an
encoded instruction gives it back, with every operand at every value. -/
def Obligations.RoundTripUnderEveryOpcodeMap : Prop :=
  ∀ map : Mnemonic → Byte, Function.Injective map → ∀ i : Instr, decodeWith map (encodeWith map i) = .ok i

/-- The words that decode to an instruction are exactly those with its opcode value, zero reserved bytes and its
operands, the fields it does not use at any value (30_encoding.md R75, R78, R81). -/
def Obligations.WordsOfAnInstructionDifferInIgnoredFieldsOnly : Prop :=
  ∀ (w : RecordWord) (i : Instr), decode w = .ok i ↔
    ∃ (r : RegIdx) (a : Word), IsRecord w (opcodeMap i.mnemonic).toNat r a ∧ i.mnemonic.instr r a = i

/-- The decoder agrees with the opcode table: a word matches a row exactly when it decodes to the row's operation, and
every word that decodes matches one row only (opcode_table.json; 30_encoding.md R74). -/
def Obligations.DecoderAgreesWithTheOpcodeTable : Prop :=
  ∀ w : RecordWord,
    (∀ row ∈ opcodeTable, w &&& row.mask = row.pattern ↔ ∃ r a, decode w = .ok (row.mnemonic.instr r a)) ∧
    (∀ row ∈ opcodeTable, ∀ row' ∈ opcodeTable,
      w &&& row.mask = row.pattern → w &&& row'.mask = row'.pattern → row = row') ∧
    (∀ i, decode w = .ok i → ∃ row ∈ opcodeTable, row.mnemonic = i.mnemonic ∧ w &&& row.mask = row.pattern)

/-! ### The register file -/

/-- 10_state.md R25: a register holds what was written, and a write leaves every other register alone; a run in which
no executed instruction writes a register leaves it as it was. -/
def Obligations.RegisterHoldsWhatWasWritten : Prop :=
  (∀ (s : State) (i : RegIdx) (v : Word), (s.writeReg i v).readReg i = v ∧
    ∀ j, j ≠ i → (s.writeReg i v).readReg j = s.readReg j) ∧
  (∀ (n : Nat) (s t : State) (i : RegIdx), runFor n s = some t →
    (∀ m u j, m < n → runFor m s = some u → Executes u j → destOf j ≠ some i) → t.readReg i = s.readReg i)

/-- 10_state.md R24: an instruction changes no register but the one it writes, and what it does depends on no register
but the one it reads. -/
def Obligations.InstructionsReadAndWriteTheRegistersOfTheTable : Prop :=
  (∀ (i : Instr) (s t : State), exec i s = .next t → ∀ j, destOf i ≠ some j → t.readReg j = s.readReg j) ∧
  (∀ (i : Instr) (s s' : State), CanExecute s → s' = { s with x := s'.x } →
    (∀ q, sourceOf i = some q → s'.readReg q = s.readReg q) →
    ∃ t t', exec i s = .next t ∧ exec i s' = .next t' ∧ t' = { t with x := t'.x } ∧
      (t.fault = 0 → ∀ d, destOf i = some d → t'.readReg d = t.readReg d))

/-! ### Instructions -/

/-- 42_system.md R150: NOP advances and changes nothing else. -/
def Obligations.NopOnlyAdvances : Prop :=
  (∀ w r a, IsRecord w 0x00 r a → decode w = .ok .nop) ∧
  ∀ s : State, CanExecute s → ∃ t, exec .nop s = .next t ∧
    Advanced s t ∧ RegistersKept [] s t ∧ t.out = s.out ∧ ProgramStable s t

/-- 41_register_ops.md R130: INC adds one modulo 2^64 to its register. -/
def Obligations.IncIncrementsItsRegister : Prop :=
  (∀ w r a, IsRecord w 0x01 r a → decode w = .ok (.inc r)) ∧
  ∀ (r : RegIdx) (s : State), CanExecute s → ∃ t, exec (.inc r) s = .next t ∧
    (t.readReg r).toNat = ((s.readReg r).toNat + 1) % 2 ^ 64 ∧
    Advanced s t ∧ RegistersKept [r] s t ∧ t.out = s.out ∧ ProgramStable s t

/-- 41_register_ops.md R131: DEC subtracts one modulo 2^64 from its register; INC then DEC, and DEC then INC, restore
every register. -/
def Obligations.DecDecrementsItsRegister : Prop :=
  (∀ w r a, IsRecord w 0x02 r a → decode w = .ok (.dec r)) ∧
  (∀ (r : RegIdx) (s : State), CanExecute s → ∃ t, exec (.dec r) s = .next t ∧
    (t.readReg r).toNat = ((s.readReg r).toNat + (2 ^ 64 - 1)) % 2 ^ 64 ∧
    Advanced s t ∧ RegistersKept [r] s t ∧ t.out = s.out ∧ ProgramStable s t) ∧
  (∀ (r : RegIdx) (s : State), CanExecute s →
    (∃ t u, exec (.inc r) s = .next t ∧ exec (.dec r) t = .next u ∧ u.x = s.x) ∧
    (∃ t u, exec (.dec r) s = .next t ∧ exec (.inc r) t = .next u ∧ u.x = s.x))

/-- 41_register_ops.md R132: LDC loads its constant unchanged. -/
def Obligations.LdcLoadsItsConstant : Prop :=
  (∀ w r a, IsRecord w 0x05 r a → decode w = .ok (.ldc r a)) ∧
  ∀ (r : RegIdx) (a : Word) (s : State), CanExecute s → ∃ t, exec (.ldc r a) s = .next t ∧
    t.readReg r = a ∧ Advanced s t ∧ RegistersKept [r] s t ∧ t.out = s.out ∧ ProgramStable s t

/-- 41_register_ops.md R133: CPY copies a register whose index is below 256, and faults with code 3 at any other
index, before any write. -/
def Obligations.CpyCopiesOrFaults : Prop :=
  (∀ w r a, IsRecord w 0x06 r a → decode w = .ok (.cpy r a)) ∧
  (∀ (r q : RegIdx) (a : Word) (s : State), CanExecute s → a.toNat = q.toNat → ∃ t, exec (.cpy r a) s = .next t ∧
    t.readReg r = s.readReg q ∧ Advanced s t ∧ RegistersKept [r] s t ∧ t.out = s.out ∧ ProgramStable s t) ∧
  (∀ (r : RegIdx) (a : Word) (s : State), CanExecute s → 256 ≤ a.toNat →
    ∃ t, exec (.cpy r a) s = .next t ∧ FaultEntered 3 s t)

/-- 42_system.md R151: DBG appends its register's value to the output, and puts it on the DBG port. -/
def Obligations.DbgEmitsItsRegister : Prop :=
  (∀ w r a, IsRecord w 0x03 r a → decode w = .ok (.dbg r)) ∧
  (∀ (r : RegIdx) (s : State), CanExecute s → ∃ t, exec (.dbg r) s = .next t ∧
    t.out = s.out ++ [s.readReg r] ∧ Advanced s t ∧ RegistersKept [] s t ∧ ProgramStable s t) ∧
  (∀ (r : RegIdx) (s : State), Executes s (.dbg r) → dbgPort s = some (s.readReg r))

/-- 42_system.md R152: QIT halts the core at its own index, and no step follows. -/
def Obligations.QitHaltsAtItsIndex : Prop :=
  (∀ w r a, IsRecord w 0x04 r a → decode w = .ok .qit) ∧
  ∀ s : State, CanExecute s → ∃ t, exec .qit s = .next t ∧
    t.running = false ∧ t.fault = 0 ∧ t.pc = s.pc ∧ RegistersKept [] s t ∧ t.out = s.out ∧ ProgramStable s t ∧
    ∀ u, step t ≠ .next u

/-- 43_jumps.md R171: JNZ with a target in the program jumps to it exactly when its register is not zero, and with any
other target faults with code 4. -/
def Obligations.JnzJumpsWhenNotZero : Prop :=
  (∀ w r a, IsRecord w 0x07 r a → decode w = .ok (.jnz r a)) ∧
  (∀ (r : RegIdx) (k : Word) (s : State), CanExecute s → k < s.progLen → ∃ t, exec (.jnz r k) s = .next t ∧
    (s.readReg r ≠ 0 → t.pc = k ∧ t.running = true ∧ t.fault = 0) ∧ (s.readReg r = 0 → Advanced s t) ∧
    RegistersKept [] s t ∧ t.out = s.out ∧ ProgramStable s t) ∧
  (∀ (r : RegIdx) (k : Word) (s : State), CanExecute s → s.progLen ≤ k →
    ∃ t, exec (.jnz r k) s = .next t ∧ FaultEntered 4 s t)

/-- 43_jumps.md R172: JWZ with a target in the program jumps to it exactly when its register is zero, and with any
other target faults with code 4. -/
def Obligations.JwzJumpsWhenZero : Prop :=
  (∀ w r a, IsRecord w 0x08 r a → decode w = .ok (.jwz r a)) ∧
  (∀ (r : RegIdx) (k : Word) (s : State), CanExecute s → k < s.progLen → ∃ t, exec (.jwz r k) s = .next t ∧
    (s.readReg r = 0 → t.pc = k ∧ t.running = true ∧ t.fault = 0) ∧ (s.readReg r ≠ 0 → Advanced s t) ∧
    RegistersKept [] s t ∧ t.out = s.out ∧ ProgramStable s t) ∧
  (∀ (r : RegIdx) (k : Word) (s : State), CanExecute s → s.progLen ≤ k →
    ∃ t, exec (.jwz r k) s = .next t ∧ FaultEntered 4 s t)

/-- 43_jumps.md R170: a jump faults with code 4 exactly when its target is outside the program, whatever the tested
register holds; and the check depends on that register in no way. -/
def Obligations.JumpTargetIsCheckedBeforeTheCondition : Prop :=
  ∀ (i : Instr) (r : RegIdx) (k : Word) (s : State), CanExecute s → (i = .jnz r k ∨ i = .jwz r k) →
    ∀ v : Word, ∃ t, exec i (s.writeReg r v) = .next t ∧
      (s.progLen.toNat ≤ k.toNat → FaultEntered 4 (s.writeReg r v) t) ∧ (k.toNat < s.progLen.toNat → t.fault = 0)

/-! ### The step -/

/-- The step of a core that can execute is `exec` of the instruction at `pc`; the advance and the boundary check are in
`exec` (log entry 8; 40_execution_cycle.md R102 to R105). -/
def Obligations.StepRunsTheDecodedInstruction : Prop :=
  ∀ (s : State) (i : Instr), CanExecute s → decode s.fetchRecord = .ok i → step s = exec i s

/-- 40_execution_cycle.md R107, R108: where `pc` goes, and when the core goes on. -/
def Obligations.PcUpdateAndBoundaryCheck : Prop :=
  ∀ (s t : State) (i : Instr), Executes s i → step s = .next t →
    (t.fault ≠ 0 → t.pc = s.pc) ∧
    (t.fault = 0 → i = .qit → t.pc = s.pc ∧ t.running = false) ∧
    (t.fault = 0 → ∀ k, takenTarget s i = some k → t.pc = k) ∧
    (t.fault = 0 → i ≠ .qit → takenTarget s i = none → t.pc.toNat = s.pc.toNat + 1) ∧
    (t.running = true ↔ t.fault = 0 ∧ i ≠ .qit ∧ t.pc < s.progLen) ∧
    (t.running = false → t.fault = 0 → i ≠ .qit → t.pc = s.progLen)

/-- 40_execution_cycle.md R101: the transitions of the execution state machine; the first row is possible only when
`N = 0`, in states with the invariant of every run. -/
def Obligations.RunStateTransitions : Prop :=
  (∀ s : State, Inv s → s.runState = some .running → s.progLen ≤ s.pc → s.progLen = 0) ∧
  (∀ s : State, s.runState = some .running → s.progLen ≤ s.pc →
    ∃ t, step s = .next t ∧ t.runState = some .halted ∧ executedCount 1 s = 0) ∧
  (∀ s e, CanExecute s → decode s.fetchRecord = .error e →
    ∃ t, step s = .next t ∧ t.runState = some .faulted) ∧
  (∀ s r a, Executes s (.cpy r a) → 256 ≤ a.toNat → ∃ t, step s = .next t ∧ t.runState = some .faulted) ∧
  (∀ s r k, Executes s (.jnz r k) ∨ Executes s (.jwz r k) → s.progLen ≤ k →
    ∃ t, step s = .next t ∧ t.runState = some .faulted) ∧
  (∀ s, Executes s .qit → ∃ t, step s = .next t ∧ t.runState = some .halted) ∧
  (∀ s i, Executes s i → i ≠ .qit → (∀ r a, i = .cpy r a → a.toNat < 256) →
    (∀ r k, i = .jnz r k ∨ i = .jwz r k → k < s.progLen) →
    ∃ t, step s = .next t ∧
      (takenTarget s i = none → s.pc.toNat + 1 = s.progLen.toNat → t.runState = some .halted) ∧
      (takenTarget s i ≠ none ∨ s.pc.toNat + 1 < s.progLen.toNat → t.runState = some .running)) ∧
  (∀ s, s.runState = some .halted ∨ s.runState = some .faulted → ∀ t, step s ≠ .next t)

/-- The model's answer where the core has no step (40_execution_cycle.md R100, 10_state.md R33; the outcomes are the
model's, log entries 3 and 4), and a step is possible only in `Running`. -/
def Obligations.OnlyARunningCoreSteps : Prop :=
  (∀ s : State, s.running = false → s.fault = 0 → step s = .fault .halted) ∧
  (∀ s : State, s.running = false → s.fault ≠ 0 → step s = .fault .faulted) ∧
  (∀ s : State, s.running = true → s.fault ≠ 0 → step s = .refused .unreachableRunState) ∧
  (∀ s t : State, step s = .next t → s.runState = some .running)

/-- 40_execution_cycle.md R109: a step that begins at the end halts and executes nothing; after a step a core that goes
on is inside the program; and the empty program halts from reset with `pc = 0` and every register 0. -/
def Obligations.EndCheckHaltsWithoutExecuting : Prop :=
  (∀ s : State, s.running = true → s.fault = 0 → s.progLen ≤ s.pc →
    ∃ t, step s = .next t ∧ t.running = false ∧ t.fault = 0 ∧ t.pc = s.pc ∧ RegistersKept [] s t ∧ t.out = s.out ∧
      ProgramStable s t ∧ executedCount 1 s = 0) ∧
  (∀ s t : State, step s = .next t → t.running = true → t.pc < t.progLen) ∧
  (∀ m : Memory, ∃ t, step (State.resetWith m 0) = .next t ∧ t.runState = some .halted ∧ t.pc = 0 ∧
    (∀ j, t.readReg j = 0) ∧ t.out = [] ∧ executedCount 1 (State.resetWith m 0) = 0)

/-- 70_reset_and_hazards.md R236: a `Running` core always takes its next step. -/
def Obligations.ARunningCoreAlwaysSteps : Prop :=
  ∀ s : State, s.runState = some .running → ∃ t, step s = .next t ∧ t.runState ≠ none

/-- 40_execution_cycle.md R112: a step depends on no record but the fetched one, and on no earlier output. -/
def Obligations.StepReadsNothingButTheFetchedRecord : Prop :=
  ∀ (s t : State) (m : Memory) (o : List Word), Memory.fetch m s.pc = s.fetchRecord → step s = .next t →
    ∃ t', step { s with mem := m, out := o } = .next t' ∧
      t'.x = t.x ∧ t'.pc = t.pc ∧ t'.running = t.running ∧ t'.fault = t.fault ∧ t'.progLen = t.progLen ∧ t'.mem = m ∧
      ∃ e, t.out = s.out ++ e ∧ t'.out = o ++ e

/-! ### Faults -/

/-- 30_encoding.md R79: an opcode value 0x09 to 0xFF encodes no instruction, and faults with code 1 when fetched. -/
def Obligations.IllegalOpcodeFaultsWhenFetched : Prop :=
  (∀ w : RecordWord, 9 ≤ wordOpcode w → decode w = .error .illegalOpcode) ∧
  ∀ s : State, CanExecute s → 9 ≤ wordOpcode s.fetchRecord → ∃ t, step s = .next t ∧ FaultEntered 1 s t

/-- 30_encoding.md R80: non-zero reserved bytes encode no instruction, and fault with code 2 when fetched; the illegal
opcode is reported over them (60_exceptions.md R202). -/
def Obligations.ReservedBytesFaultWhenFetched : Prop :=
  (∀ w : RecordWord, wordReserved w ≠ 0 → ∃ e, decode w = .error e) ∧
  ∀ s : State, CanExecute s → wordReserved s.fetchRecord ≠ 0 →
    ∃ t, step s = .next t ∧ FaultEntered (if 9 ≤ wordOpcode s.fetchRecord then 1 else 2) s t

/-- 60_exceptions.md R200, R202: each code is reported under exactly its condition, no other code is written, and a fault
leaves `pc` at the faulting instruction's index. -/
def Obligations.FaultCodesAreExactlyTheTable : Prop :=
  ∀ s t : State, CanExecute s → step s = .next t →
    (t.fault = 1 ↔ 9 ≤ wordOpcode s.fetchRecord) ∧
    (t.fault = 2 ↔ wordOpcode s.fetchRecord < 9 ∧ wordReserved s.fetchRecord ≠ 0) ∧
    (t.fault = 3 ↔ wordOpcode s.fetchRecord = 6 ∧ wordReserved s.fetchRecord = 0 ∧
      256 ≤ (wordArgument s.fetchRecord).toNat) ∧
    (t.fault = 4 ↔ (wordOpcode s.fetchRecord = 7 ∨ wordOpcode s.fetchRecord = 8) ∧ wordReserved s.fetchRecord = 0 ∧
      s.progLen ≤ wordArgument s.fetchRecord) ∧
    t.fault ≤ 4 ∧ (t.fault ≠ 0 → t.pc = s.pc)

/-- 40_execution_cycle.md R111: a faulting step changes only `running` and `fault`. -/
def Obligations.FaultingStepChangesOnlyRunFlagAndFault : Prop :=
  ∀ s t : State, step s = .next t → t.fault ≠ 0 → t = { s with running := false, fault := t.fault }

/-- 60_exceptions.md R205: `fault` is written at most once in a run, since no step follows the one that writes it. -/
def Obligations.FaultIsWrittenAtMostOncePerRun : Prop :=
  (∀ s t : State, step s = .next t → s.fault = 0 ∧ (t.fault ≠ 0 → ∀ u, step t ≠ .next u)) ∧
  (∀ (n m : Nat) (s t u : State), runFor n s = some t → runFor (n + m) s = some u →
    t.fault ≠ 0 → m = 0 ∧ u = t)

/-! ### Runs -/

/-- 10_state.md R32, R37: only DBG changes the output, by appending one value, and a run's output is the values of the
DBG port in execution order. -/
def Obligations.OutputIsTheDbgValuesInOrder : Prop :=
  (∀ s t : State, step s = .next t →
    (∃ r, Executes s (.dbg r) ∧ t.out = s.out ++ [s.readReg r] ∧ dbgPort s = some (s.readReg r)) ∨
    ((∀ r, ¬ Executes s (.dbg r)) ∧ t.out = s.out ∧ dbgPort s = none)) ∧
  (∀ (n : Nat) (s t : State), runFor n s = some t → t.out = s.out ++ dbgValues n s)

/-- The program is the one bound at reset in every state of a run, so every fetch of an index gives one record
(20_memory.md R61, 10_state.md R36). -/
def Obligations.ProgramIsNeverChanged : Prop :=
  ∀ (n : Nat) (s t : State), runFor n s = some t →
    ProgramStable s t ∧ ∀ k, Memory.fetch t.mem k = Memory.fetch s.mem k

/-- A jump to its own index whose condition holds never stops (40_execution_cycle.md R110; 43_jumps.md R171, R172). -/
def Obligations.AJumpToItselfRunsForever : Prop :=
  ∀ (s : State) (r : RegIdx),
    (Executes s (.jnz r s.pc) ∧ s.readReg r ≠ 0) ∨ (Executes s (.jwz r s.pc) ∧ s.readReg r = 0) →
    RunsForever s ∧ ∀ n, runFor n s = some s

/-- The end of a run (40_execution_cycle.md R113, R110): a run ends normally, ends in error, or runs forever, one of the
three only and in one state only; and it is safe exactly where it does not end in error. -/
def Obligations.ARunHasExactlyOneEnd : Prop :=
  ∀ s : State, s.runState ≠ none →
    (RunsForever s ∨ ∃ t, EndsNormally s t ∨ EndsInError s t) ∧
    (∀ t u, (EndsNormally s t ∨ EndsInError s t) → (EndsNormally s u ∨ EndsInError s u) → t = u) ∧
    (RunsForever s → ∀ t, ¬ EndsNormally s t ∧ ¬ EndsInError s t) ∧
    (SafeRun s ↔ ¬ ∃ t, EndsInError s t)

/-- Executed instructions are the steps that fetched a record: all of a run's steps, but the one step of a core that
begins at the end of its program (40_execution_cycle.md R114, R109). -/
def Obligations.ExecutedCountIsTheNumberOfFetches : Prop :=
  ∀ (n : Nat) (s t : State), runFor n s = some t →
    (s.pc < s.progLen → executedCount n s = n) ∧ (s.progLen ≤ s.pc → n ≤ 1 ∧ executedCount n s = 0)

/-- 10_state.md R33: the run state is this function of `running` and `fault`, and no run from reset reaches the fourth
pair. -/
def Obligations.RunStateIsTheTableAndTheFourthPairIsUnreachable : Prop :=
  (∀ s : State, (s.runState = some .running ↔ s.running = true ∧ s.fault = 0) ∧
    (s.runState = some .halted ↔ s.running = false ∧ s.fault = 0) ∧
    (s.runState = some .faulted ↔ s.running = false ∧ s.fault ≠ 0)) ∧
  (∀ (m : Memory) (n : Word) (t : State), Reaches (State.resetWith m n) t → ¬ (t.running = true ∧ t.fault ≠ 0))

/-- Under the launch premise `ProgramWellFormed` no state of a run holds a decode fault (70_reset_and_hazards.md R233,
90_conflicts.md C6). -/
def Obligations.AWellFormedProgramNeverTakesADecodeFault : Prop :=
  ∀ s : State, CleanReset s → ProgramWellFormed s.mem s.progLen →
    ∀ t, Reaches s t → t.fault ≠ 1 ∧ t.fault ≠ 2 ∧ (∀ u, step t = .next u → u.fault ≠ 0 →
      ∃ r a, (Executes t (.cpy r a) ∧ 256 ≤ a.toNat) ∨
        ((Executes t (.jnz r a) ∨ Executes t (.jwz r a)) ∧ t.progLen ≤ a))

/-- Every step keeps the launch premise `ProgramWellFormed` and reports no decode fault: a fault it reports is code 3, of
a CPY with a source of 256 or more, or code 4, of a jump with a target of `N` or more (70_reset_and_hazards.md R233,
90_conflicts.md C6, 60_exceptions.md R200). -/
def Obligations.EveryStepKeepsTheWellFormedLaunch : Prop :=
  ∀ s t : State, ProgramWellFormed s.mem s.progLen → s.fault ≠ 1 → s.fault ≠ 2 → step s = .next t →
    ProgramWellFormed t.mem t.progLen ∧ t.fault ≠ 1 ∧ t.fault ≠ 2 ∧
    (t.fault ≠ 0 → ∃ r a, (Executes s (.cpy r a) ∧ 256 ≤ a.toNat ∧ t.fault = 3) ∨
      ((Executes s (.jnz r a) ∨ Executes s (.jwz r a)) ∧ s.progLen ≤ a ∧ t.fault = 4))

/-- The invariant holds right after reset with a canonical program, the empty one of `State.reset` among them (the
empty program is the model's choice, log entry 2). -/
def Obligations.InvariantAtReset : Prop :=
  (∀ (m : Memory) (n : Word), ProgramOk m n → Inv (State.resetWith m n)) ∧ Inv State.reset

/-- Every step keeps the invariant: canonical program, `pc` at most `N` (10_state.md R29), no reserved fault code
(60_exceptions.md R200), no fault while running (10_state.md R33), and `pc` inside the program while running but for the
first step of the empty program (40_execution_cycle.md R109). -/
def Obligations.EveryStepKeepsTheInvariant : Prop :=
  ∀ s t : State, Inv s → step s = .next t → Inv t

/-! ### Reset and the host -/

/-- 70_reset_and_hazards.md R230: reset, in any run state, binds the program and loads the reset state. -/
def Obligations.ResetLoadsTheResetState : Prop :=
  ∀ (s : State) (m : Memory) (n : Word),
    (∀ j, (applyReset s m n).readReg j = 0) ∧ (applyReset s m n).pc = 0 ∧ (applyReset s m n).running = true ∧
    (applyReset s m n).fault = 0 ∧ (applyReset s m n).out = [] ∧ (applyReset s m n).mem = m ∧
    (applyReset s m n).progLen = n

/-- A valid buffer is bound whole: reset never fails, `N` is its length in records, and record `k` is its bytes `16*k` to
`16*k + 15` (20_memory.md R51, 70_reset_and_hazards.md R231, R233). -/
def Obligations.CreateBindsEveryRecordOfTheBuffer : Prop :=
  ∀ bytes : List Byte, BufferLengthValid bytes →
    ∃ s, create bytes = .ok s ∧ CleanReset s ∧ ProgramOk s.mem s.progLen ∧
      bytes.length = 16 * s.progLen.toNat ∧
      ∀ k : Word, k < s.progLen → recordBytes (Memory.fetch s.mem k) = (bytes.drop (16 * k.toNat)).take 16

/-- A buffer whose length is no multiple of 16 is rejected when it is built (20_memory.md R54, 60_exceptions.md R206);
one of more than 2^64 - 1 records too (log entry 10). -/
def Obligations.BadBuffersAreRejected : Prop :=
  (∀ bytes : List Byte, bytes.length % 16 ≠ 0 → create bytes = .error .partialRecord) ∧
  (∀ (bytes : List Byte) (n : Nat), bytes.length = 16 * n → 2 ^ 64 ≤ n → create bytes = .error .tooLong)

/-- 10_state.md R38, R27: the host reads `pc_out`, `reg_rd_data` and `fault` only once the core has stopped, and a
request for an index of 256 or more is refused. -/
def Obligations.HostReadsOnlyAStoppedCore : Prop :=
  (∀ s : State, runningPort s = s.running) ∧
  (∀ (s : State) (r : RegIdx), s.running = true → pcOutPort s = .error .coreRunning ∧
    faultPort s = .error .coreRunning ∧ regReadPort s r.toNat = .error .coreRunning) ∧
  (∀ (s : State) (r : RegIdx), s.running = false → pcOutPort s = .ok s.pc ∧ faultPort s = .ok s.fault ∧
    regReadPort s r.toNat = .ok (s.readReg r)) ∧
  (∀ (s : State) (n : Nat), 256 ≤ n → regReadPort s n = .error .indexOutOfRange)

/-- The model's loader for the host's table words: a word placed for the next fetch is the record that the next step
fetches, in a core that can execute, and the registers and the output are kept (log entry 9). -/
def Obligations.PlacedWordIsTheNextFetched : Prop :=
  ∀ (s : State) (w : RecordWord), Memory.wf s.mem = true →
    CanExecute (s.withFetchWord 128 w.toNat) ∧ (s.withFetchWord 128 w.toNat).fetchRecord = w ∧
    Memory.wf (s.withFetchWord 128 w.toNat).mem = true ∧
    RegistersKept [] s (s.withFetchWord 128 w.toNat) ∧ (s.withFetchWord 128 w.toNat).out = s.out
end

