-- ==== Sys2Proof/Laws/State.lean ====
section
/-! SUPPORT. One lemma per field and per update of the state, so that no proof unfolds a record update. -/

namespace Sys2Proof.Machine

/-! ### `State.writeReg` -/

@[simp] theorem State.writeReg_x (s : State) (i : RegIdx) (v : Word) : (s.writeReg i v).x = s.x.set i.toNat v i.isLt := rfl
@[simp] theorem State.writeReg_pc (s : State) (i : RegIdx) (v : Word) : (s.writeReg i v).pc = s.pc := rfl
@[simp] theorem State.writeReg_running (s : State) (i : RegIdx) (v : Word) : (s.writeReg i v).running = s.running := rfl
@[simp] theorem State.writeReg_fault (s : State) (i : RegIdx) (v : Word) : (s.writeReg i v).fault = s.fault := rfl
@[simp] theorem State.writeReg_out (s : State) (i : RegIdx) (v : Word) : (s.writeReg i v).out = s.out := rfl
@[simp] theorem State.writeReg_mem (s : State) (i : RegIdx) (v : Word) : (s.writeReg i v).mem = s.mem := rfl
@[simp] theorem State.writeReg_progLen (s : State) (i : RegIdx) (v : Word) : (s.writeReg i v).progLen = s.progLen := rfl

/-! ### `State.emit` -/

@[simp] theorem State.emit_x (s : State) (v : Word) : (s.emit v).x = s.x := rfl
@[simp] theorem State.emit_pc (s : State) (v : Word) : (s.emit v).pc = s.pc := rfl
@[simp] theorem State.emit_running (s : State) (v : Word) : (s.emit v).running = s.running := rfl
@[simp] theorem State.emit_fault (s : State) (v : Word) : (s.emit v).fault = s.fault := rfl
@[simp] theorem State.emit_out (s : State) (v : Word) : (s.emit v).out = s.out ++ [v] := rfl
@[simp] theorem State.emit_mem (s : State) (v : Word) : (s.emit v).mem = s.mem := rfl
@[simp] theorem State.emit_progLen (s : State) (v : Word) : (s.emit v).progLen = s.progLen := rfl

/-! ### `State.raise` -/

@[simp] theorem State.raise_x (s : State) (c : Cause) : (s.raise c).x = s.x := rfl
@[simp] theorem State.raise_pc (s : State) (c : Cause) : (s.raise c).pc = s.pc := rfl
@[simp] theorem State.raise_running (s : State) (c : Cause) : (s.raise c).running = false := rfl
@[simp] theorem State.raise_fault (s : State) (c : Cause) : (s.raise c).fault = c.code := rfl
@[simp] theorem State.raise_out (s : State) (c : Cause) : (s.raise c).out = s.out := rfl
@[simp] theorem State.raise_mem (s : State) (c : Cause) : (s.raise c).mem = s.mem := rfl
@[simp] theorem State.raise_progLen (s : State) (c : Cause) : (s.raise c).progLen = s.progLen := rfl

/-! ### `State.halt` -/

@[simp] theorem State.halt_x (s : State) : s.halt.x = s.x := rfl
@[simp] theorem State.halt_pc (s : State) : s.halt.pc = s.pc := rfl
@[simp] theorem State.halt_running (s : State) : s.halt.running = false := rfl
@[simp] theorem State.halt_fault (s : State) : s.halt.fault = s.fault := rfl
@[simp] theorem State.halt_out (s : State) : s.halt.out = s.out := rfl
@[simp] theorem State.halt_mem (s : State) : s.halt.mem = s.mem := rfl
@[simp] theorem State.halt_progLen (s : State) : s.halt.progLen = s.progLen := rfl

/-! ### `State.setPc` -/

@[simp] theorem State.setPc_x (s : State) (k : Word) : (s.setPc k).x = s.x := rfl
@[simp] theorem State.setPc_pc (s : State) (k : Word) : (s.setPc k).pc = k := rfl
@[simp] theorem State.setPc_running (s : State) (k : Word) : (s.setPc k).running = s.running := rfl
@[simp] theorem State.setPc_fault (s : State) (k : Word) : (s.setPc k).fault = s.fault := rfl
@[simp] theorem State.setPc_out (s : State) (k : Word) : (s.setPc k).out = s.out := rfl
@[simp] theorem State.setPc_mem (s : State) (k : Word) : (s.setPc k).mem = s.mem := rfl
@[simp] theorem State.setPc_progLen (s : State) (k : Word) : (s.setPc k).progLen = s.progLen := rfl

/-! ### `State.resetWith` -/

@[simp] theorem State.resetWith_x (m : Memory) (n : Word) : (State.resetWith m n).x = Vector.replicate Config.registerCount 0 := rfl
@[simp] theorem State.resetWith_pc (m : Memory) (n : Word) : (State.resetWith m n).pc = 0 := rfl
@[simp] theorem State.resetWith_running (m : Memory) (n : Word) : (State.resetWith m n).running = true := rfl
@[simp] theorem State.resetWith_fault (m : Memory) (n : Word) : (State.resetWith m n).fault = 0 := rfl
@[simp] theorem State.resetWith_out (m : Memory) (n : Word) : (State.resetWith m n).out = [] := rfl
@[simp] theorem State.resetWith_mem (m : Memory) (n : Word) : (State.resetWith m n).mem = m := rfl
@[simp] theorem State.resetWith_progLen (m : Memory) (n : Word) : (State.resetWith m n).progLen = n := rfl

/-! ### Reading a register after an update -/

@[simp] theorem State.readReg_writeReg_same (s : State) (i : RegIdx) (v : Word) :
    (s.writeReg i v).readReg i = v := by
  simp [State.readReg, State.writeReg]

theorem State.readReg_writeReg_other (s : State) {i j : RegIdx} (v : Word) (h : j ≠ i) :
    (s.writeReg i v).readReg j = s.readReg j := by
  have hne : i.toNat ≠ j.toNat := fun e => h (BitVec.eq_of_toNat_eq e.symm)
  simp only [State.readReg, State.writeReg]
  exact Vector.getElem_set_ne i.isLt j.isLt hne

@[simp] theorem State.readReg_emit (s : State) (v : Word) (j : RegIdx) : (s.emit v).readReg j = s.readReg j := rfl
@[simp] theorem State.readReg_raise (s : State) (c : Cause) (j : RegIdx) : (s.raise c).readReg j = s.readReg j := rfl
@[simp] theorem State.readReg_halt (s : State) (j : RegIdx) : s.halt.readReg j = s.readReg j := rfl
@[simp] theorem State.readReg_setPc (s : State) (k : Word) (j : RegIdx) : (s.setPc k).readReg j = s.readReg j := rfl

@[simp] theorem State.readReg_resetWith (m : Memory) (n : Word) (j : RegIdx) :
    (State.resetWith m n).readReg j = 0 := by
  simp [State.readReg]

/-- Two register files are equal when every register reads the same. -/
theorem State.x_ext {s t : State} (h : ∀ j, s.readReg j = t.readReg j) : s.x = t.x := by
  apply Vector.ext
  intro n hn
  have hj := h (BitVec.ofNat 8 n)
  have e : n % 256 = n := Nat.mod_eq_of_lt hn
  simpa [State.readReg, e] using hj

end Sys2Proof.Machine
end

