-- ==== Sys2Proof/Laws/Complete.lean ====
section
/-! SUPPORT. What the advance and the boundary check do (40_execution_cycle.md R107, R108). -/

namespace Sys2Proof.Machine

/-! ### `State.boundaryCheck` -/

theorem State.boundaryCheck_eq (s : State) :
    s.boundaryCheck = { s with running := s.running && decide (s.pc < s.progLen) } := by
  cases s
  simp only [State.boundaryCheck, State.halt]
  split <;> simp_all

@[simp] theorem State.boundaryCheck_x (s : State) : s.boundaryCheck.x = s.x := by simp [State.boundaryCheck_eq]
@[simp] theorem State.boundaryCheck_pc (s : State) : s.boundaryCheck.pc = s.pc := by simp [State.boundaryCheck_eq]
@[simp] theorem State.boundaryCheck_running (s : State) :
    s.boundaryCheck.running = (s.running && decide (s.pc < s.progLen)) := by simp [State.boundaryCheck_eq]
@[simp] theorem State.boundaryCheck_fault (s : State) : s.boundaryCheck.fault = s.fault := by
  simp [State.boundaryCheck_eq]
@[simp] theorem State.boundaryCheck_out (s : State) : s.boundaryCheck.out = s.out := by simp [State.boundaryCheck_eq]
@[simp] theorem State.boundaryCheck_mem (s : State) : s.boundaryCheck.mem = s.mem := by simp [State.boundaryCheck_eq]
@[simp] theorem State.boundaryCheck_progLen (s : State) : s.boundaryCheck.progLen = s.progLen := by
  simp [State.boundaryCheck_eq]

/-! ### `State.advance` -/

@[simp] theorem State.advance_jumped (s : State) : s.advance true = s := by simp [State.advance]

theorem State.advance_running {s : State} (h : s.running = true) : s.advance false = s.setPc (s.pc + 1) := by
  simp [State.advance, h]

theorem State.advance_stopped {s : State} (h : s.running = false) (j : Bool) : s.advance j = s := by
  simp [State.advance, h]

theorem State.advance_eq (s : State) (j : Bool) :
    s.advance j = s.setPc (if s.running && !j then s.pc + 1 else s.pc) := by
  cases s
  simp only [State.advance]
  split <;> rfl

/-! ### `State.complete`: each field after advance and boundary check -/

@[simp] theorem State.complete_x (s : State) (j : Bool) : (s.complete j).x = s.x := by
  simp [State.complete, State.advance_eq]
@[simp] theorem State.complete_fault (s : State) (j : Bool) : (s.complete j).fault = s.fault := by
  simp [State.complete, State.advance_eq]
@[simp] theorem State.complete_out (s : State) (j : Bool) : (s.complete j).out = s.out := by
  simp [State.complete, State.advance_eq]
@[simp] theorem State.complete_mem (s : State) (j : Bool) : (s.complete j).mem = s.mem := by
  simp [State.complete, State.advance_eq]
@[simp] theorem State.complete_progLen (s : State) (j : Bool) : (s.complete j).progLen = s.progLen := by
  simp [State.complete, State.advance_eq]
theorem State.complete_pc (s : State) (j : Bool) :
    (s.complete j).pc = if s.running && !j then s.pc + 1 else s.pc := by
  simp [State.complete, State.advance_eq]
theorem State.complete_running (s : State) (j : Bool) :
    (s.complete j).running = (s.running && decide ((s.complete j).pc < s.progLen)) := by
  simp only [State.complete, State.boundaryCheck_running, State.boundaryCheck_pc, State.advance_eq]
  rfl
@[simp] theorem State.readReg_complete (s : State) (j : Bool) (r : RegIdx) :
    (s.complete j).readReg r = s.readReg r := by
  simp [State.readReg]

/-- The two fields that advance and boundary check write. -/
theorem State.complete_eq (s : State) (j : Bool) :
    s.complete j = { s with pc := (s.complete j).pc, running := (s.complete j).running } := by
  ext1 <;> simp

/-- Advance and boundary check depend on the run flag, `pc` and `N` alone. -/
theorem State.complete_congr {s t : State} (hr : t.running = s.running) (hpc : t.pc = s.pc)
    (hn : t.progLen = s.progLen) (j : Bool) :
    (t.complete j).pc = (s.complete j).pc ∧ (t.complete j).running = (s.complete j).running := by
  have hp : (t.complete j).pc = (s.complete j).pc := by rw [State.complete_pc, State.complete_pc, hr, hpc]
  exact ⟨hp, by rw [State.complete_running, State.complete_running, hr, hp, hn]⟩

/-- A halted core is left as it is: no advance (40_execution_cycle.md R107). -/
theorem State.complete_stopped {s : State} (h : s.running = false) (j : Bool) : s.complete j = s := by
  cases s
  simp_all [State.complete, State.advance, State.boundaryCheck, State.halt]

/-- Inside the program, `pc + 1` does not wrap (10_state.md R29). -/
theorem pc_add_one_toNat {pc n : Word} (h : pc < n) : (pc + 1).toNat = pc.toNat + 1 := by
  bv_omega

end Sys2Proof.Machine
end

