-- ==== Sys2Proof/Laws/Memory.lean ====
section
/-! SUPPORT. The program buffer: read after write, and the canonical form. -/

namespace Sys2Proof.Machine

/-! ### Read after write -/

@[simp] theorem Memory.read_nil (k : Nat) : Memory.read [] k = Memory.unlisted := rfl

theorem Memory.read_cons (a : Nat) (b : Byte) (rest : Memory) (k : Nat) :
    Memory.read ((a, b) :: rest) k = if k = a then b else Memory.read rest k := rfl

/-- Canonical from a higher address on is canonical from a lower one on. -/
theorem Memory.wfFrom_mono {lo lo' : Nat} {m : Memory} (h : Memory.wfFrom lo' m = true) (hle : lo ≤ lo') :
    Memory.wfFrom lo m = true := by
  cases m with
  | nil => rfl
  | cons c rest =>
    obtain ⟨a, b⟩ := c
    simp only [Memory.wfFrom, Bool.and_eq_true, decide_eq_true_eq] at h ⊢
    exact ⟨⟨by omega, h.1.2⟩, h.2⟩

/-- Below its first address a canonical buffer lists nothing. -/
theorem Memory.read_below {lo : Nat} {m : Memory} (h : Memory.wfFrom lo m = true) {k : Nat} (hk : k < lo) :
    Memory.read m k = Memory.unlisted := by
  induction m generalizing lo with
  | nil => rfl
  | cons c rest ih =>
    obtain ⟨a, b⟩ := c
    simp only [Memory.wfFrom, Bool.and_eq_true, decide_eq_true_eq] at h
    rw [Memory.read_cons, if_neg (by omega)]
    exact ih h.2 (by omega)

theorem Memory.read_writeFrom {lo : Nat} {m : Memory} (h : Memory.wfFrom lo m = true) (k : Nat) (v : Byte) (j : Nat) :
    Memory.read (Memory.write m k v) j = if j = k then v else Memory.read m j := by
  induction m generalizing lo with
  | nil =>
    by_cases hv : v = Memory.unlisted <;> by_cases hj : j = k <;> simp [Memory.write, Memory.read, hv, hj]
  | cons c rest ih =>
    obtain ⟨a, b⟩ := c
    simp only [Memory.wfFrom, Bool.and_eq_true, decide_eq_true_eq] at h
    have hbelow : ∀ {q : Nat}, q < a + 1 → Memory.read rest q = Memory.unlisted := Memory.read_below h.2
    simp only [Memory.write]
    split
    · rename_i hka
      by_cases hv : v = Memory.unlisted
      · by_cases hj : j = k
        · subst hj
          simp [hv, Memory.read_cons, Nat.ne_of_lt hka, hbelow (Nat.lt_succ_of_lt hka)]
        · simp [hv, hj]
      · simp [hv, Memory.read_cons]
    · split
      · rename_i _ hka
        subst hka
        by_cases hv : v = Memory.unlisted
        · by_cases hj : j = k
          · subst hj
            simp [hv, hbelow (Nat.lt_succ_self _)]
          · simp [hv, hj, Memory.read_cons]
        · by_cases hj : j = k <;> simp [hv, hj, Memory.read_cons]
      · rename_i _ hka
        rw [Memory.read_cons, Memory.read_cons, ih h.2]
        by_cases hj : j = a
        · subst hj
          simp [Ne.symm hka]
        · simp [hj]

/-- A read after a write: the written byte at its address, every other byte as before. -/
theorem Memory.read_write {m : Memory} (h : Memory.wf m = true) (k : Nat) (v : Byte) (j : Nat) :
    Memory.read (Memory.write m k v) j = if j = k then v else Memory.read m j :=
  Memory.read_writeFrom h k v j

/-! ### The canonical form -/

theorem Memory.write_wfFrom {lo : Nat} {m : Memory} (h : Memory.wfFrom lo m = true) {k : Nat} (hk : lo ≤ k)
    (v : Byte) : Memory.wfFrom lo (Memory.write m k v) = true := by
  induction m generalizing lo with
  | nil => by_cases hv : v = Memory.unlisted <;> simp [Memory.write, Memory.wfFrom, hv, hk]
  | cons c rest ih =>
    obtain ⟨a, b⟩ := c
    have h0 := h
    simp only [Memory.wfFrom, Bool.and_eq_true, decide_eq_true_eq] at h
    simp only [Memory.write]
    split
    · rename_i hka
      by_cases hv : v = Memory.unlisted
      · simpa [hv] using h0
      · simp only [hv, if_false, Memory.wfFrom, Bool.and_eq_true, decide_eq_true_eq]
        exact ⟨⟨hk, by simpa using hv⟩, ⟨by omega, h.1.2⟩, h.2⟩
    · split
      · rename_i _ hka
        subst hka
        by_cases hv : v = Memory.unlisted
        · simpa [hv] using Memory.wfFrom_mono h.2 (by omega)
        · simp only [hv, if_false, Memory.wfFrom, Bool.and_eq_true, decide_eq_true_eq]
          exact ⟨⟨hk, by simpa using hv⟩, h.2⟩
      · rename_i hlt hka
        simp only [Memory.wfFrom, Bool.and_eq_true, decide_eq_true_eq]
        exact ⟨h.1, ih h.2 (by omega)⟩

/-- A write keeps the canonical form. -/
theorem Memory.write_wf {m : Memory} (h : Memory.wf m = true) (k : Nat) (v : Byte) :
    Memory.wf (Memory.write m k v) = true :=
  Memory.write_wfFrom h (Nat.zero_le k) v

/-- Writing bytes keeps the canonical form. -/
theorem Memory.writeBytes_wf {m : Memory} (h : Memory.wf m = true) (a : Nat) (bs : List Byte) :
    Memory.wf (Memory.writeBytes m a bs) = true := by
  induction bs generalizing m a with
  | nil => exact h
  | cons b bs ih => exact ih (Memory.write_wf h a b) (a + 1)

/-- Placing a record keeps the canonical form. -/
theorem Memory.placeRecord_wf {m : Memory} (h : Memory.wf m = true) (k : Word) (w : RecordWord) :
    Memory.wf (Memory.placeRecord m k w) = true :=
  Memory.writeBytes_wf h _ _

theorem Memory.within_cons (n a : Nat) (b : Byte) (rest : Memory) :
    Memory.within n ((a, b) :: rest) = (decide (a < Config.recordSize * n) && Memory.within n rest) := rfl

/-- A write inside a buffer of `n` records stays inside it. -/
theorem Memory.write_within {n : Nat} {m : Memory} (h : Memory.within n m = true) {k : Nat}
    (hk : k < Config.recordSize * n) (v : Byte) : Memory.within n (Memory.write m k v) = true := by
  induction m with
  | nil => by_cases hv : v = Memory.unlisted <;> simp [Memory.write, Memory.within, hv, hk]
  | cons c rest ih =>
    obtain ⟨a, b⟩ := c
    simp only [Memory.within_cons, Bool.and_eq_true, decide_eq_true_eq] at h
    simp only [Memory.write]
    repeat' split
    all_goals simp only [Memory.within_cons, Bool.and_eq_true, decide_eq_true_eq, h, hk, ih h.2, and_self]

/-- Writing bytes inside a buffer of `n` records stays inside it. -/
theorem Memory.writeBytes_within {n : Nat} {m : Memory} (h : Memory.within n m = true) (a : Nat) (bs : List Byte)
    (hk : a + bs.length ≤ Config.recordSize * n) : Memory.within n (Memory.writeBytes m a bs) = true := by
  induction bs generalizing m a with
  | nil => exact h
  | cons b bs ih =>
    simp only [List.length_cons] at hk
    exact ih (Memory.write_within h (by omega) b) (a + 1) (by omega)

/-- The reset memory is canonical. -/
theorem Memory.reset_wf : Memory.wf State.reset.mem = true := rfl

/-- Canonical buffers with the same bytes are the same list. -/
theorem Memory.ext_of_wfFrom {lo : Nat} {m m' : Memory} (h : Memory.wfFrom lo m = true)
    (h' : Memory.wfFrom lo m' = true) (e : ∀ a, Memory.read m a = Memory.read m' a) : m = m' := by
  induction m generalizing lo m' with
  | nil =>
    cases m' with
    | nil => rfl
    | cons c rest =>
      obtain ⟨a, b⟩ := c
      simp only [Memory.wfFrom, Bool.and_eq_true, bne_iff_ne] at h'
      exact absurd (by simpa [Memory.read_cons] using (e a).symm) h'.1.2
  | cons c rest ih =>
    obtain ⟨a, b⟩ := c
    cases m' with
    | nil =>
      simp only [Memory.wfFrom, Bool.and_eq_true, bne_iff_ne] at h
      exact absurd (by simpa [Memory.read_cons] using e a) h.1.2
    | cons c' rest' =>
      obtain ⟨a', b'⟩ := c'
      simp only [Memory.wfFrom, Bool.and_eq_true, bne_iff_ne, decide_eq_true_eq] at h h'
      have low : ∀ {q : Nat}, q < a + 1 → Memory.read rest q = Memory.unlisted := Memory.read_below h.2
      have low' : ∀ {q : Nat}, q < a' + 1 → Memory.read rest' q = Memory.unlisted := Memory.read_below h'.2
      have haa : a = a' := by
        rcases Nat.lt_trichotomy a a' with hlt | heq | hgt
        · have q := e a
          rw [Memory.read_cons, if_pos rfl, Memory.read_cons, if_neg (by omega), low' (by omega)] at q
          exact absurd q h.1.2
        · exact heq
        · have q := e a'
          rw [Memory.read_cons, if_neg (by omega), low (by omega), Memory.read_cons, if_pos rfl] at q
          exact absurd q.symm h'.1.2
      subst haa
      have hb : b = b' := by simpa [Memory.read_cons] using e a
      subst hb
      congr 1
      refine ih h.2 h'.2 fun q => ?_
      by_cases hq : q = a
      · subst hq
        rw [low (by omega), low' (by omega)]
      · simpa [Memory.read_cons, hq] using e q

/-- Equal memories are equal data. -/
theorem Memory.ext_of_wf {m m' : Memory} (h : Memory.wf m = true) (h' : Memory.wf m' = true)
    (e : ∀ a, Memory.read m a = Memory.read m' a) : m = m' :=
  Memory.ext_of_wfFrom h h' e

/-! ### Wider accesses -/

/-- A read after writing bytes: a written byte inside their range, every other byte as before. -/
theorem Memory.read_writeBytes {m : Memory} (h : Memory.wf m = true) (a : Nat) (bs : List Byte) (j : Nat) :
    Memory.read (Memory.writeBytes m a bs) j =
      if a ≤ j then (bs[j - a]?).getD (Memory.read m j) else Memory.read m j := by
  induction bs generalizing m a with
  | nil => simp [Memory.writeBytes]
  | cons b bs ih =>
    simp only [Memory.writeBytes]
    rw [ih (Memory.write_wf h a b), Memory.read_write h]
    rcases Nat.lt_trichotomy j a with hlt | heq | hgt
    · simp [show ¬ a + 1 ≤ j by omega, show ¬ a ≤ j by omega, Nat.ne_of_lt hlt]
    · subst heq
      simp
    · obtain ⟨d, rfl⟩ : ∃ d, j = a + 1 + d := ⟨j - (a + 1), by omega⟩
      have e1 : a + 1 + d - a = d + 1 := by omega
      have e2 : a + 1 + d - (a + 1) = d := by omega
      have e3 : a + 1 + d ≠ a := by omega
      have e4 : a ≤ a + 1 + d := by omega
      simp [e1, e2, e3, e4]

/-- Reading the bytes that were just written. -/
theorem Memory.readBytes_writeBytes {m : Memory} (h : Memory.wf m = true) (a : Nat) (bs : List Byte) :
    Memory.readBytes (Memory.writeBytes m a bs) a bs.length = bs := by
  have key : ∀ (n k : Nat), n + k = bs.length →
      Memory.readBytes (Memory.writeBytes m a bs) (a + k) n = bs.drop k := by
    intro n
    induction n with
    | zero =>
      intro k hk
      simp only [Memory.readBytes]
      exact (List.drop_eq_nil_of_le (by omega)).symm
    | succ n ih =>
      intro k hk
      have hlt : k < bs.length := by omega
      rw [Memory.readBytes, Nat.add_assoc, ih (k + 1) (by omega), Memory.read_writeBytes h,
        List.drop_eq_getElem_cons hlt]
      simp [hlt]
  simpa using key bs.length 0 (by omega)

end Sys2Proof.Machine
end

