-- ==== Sys2Proof/Laws/Record.lean ====
section
/-! SUPPORT. Byte order, fields of the record word, and what the decoder answers (30_encoding.md). -/

namespace Sys2Proof

/-! ### Byte order -/

@[simp] theorem leBytes_length (n v : Nat) : (leBytes n v).length = n := by
  induction n generalizing v with
  | zero => rfl
  | succ n ih => simp [leBytes, ih]

@[simp] theorem recordBytes_length (w : RecordWord) : (recordBytes w).length = 16 := leBytes_length _ _

theorem leNat_leBytes (n v : Nat) : leNat (leBytes n v) = v % 256 ^ n := by
  induction n generalizing v with
  | zero => simp [leBytes, leNat, Nat.mod_one]
  | succ n ih =>
    simp only [leBytes, leNat, ih, BitVec.toNat_ofNat]
    rw [show 256 ^ (n + 1) = 256 * 256 ^ n from Nat.pow_succ', Nat.mod_mul (x := v) (a := 256) (b := 256 ^ n)]

/-- The record word of a word's bytes is the word. -/
@[simp] theorem recordWord_recordBytes (w : RecordWord) : recordWord (recordBytes w) = w := by
  apply BitVec.eq_of_toNat_eq
  have h := w.isLt
  have e : 256 ^ Config.recordSize = 2 ^ 128 := by norm_num
  simp only [recordWord, recordBytes, leNat_leBytes, BitVec.toNat_ofNat, e]
  omega

theorem leBytes_leNat (bs : List Byte) : leBytes bs.length (leNat bs) = bs := by
  induction bs with
  | nil => rfl
  | cons b bs ih =>
    have hb := b.isLt
    have h1 : (b.toNat + 256 * leNat bs) / 256 = leNat bs := by omega
    have h2 : BitVec.ofNat 8 (b.toNat + 256 * leNat bs) = b := by
      apply BitVec.eq_of_toNat_eq
      simp only [BitVec.toNat_ofNat]
      omega
    simp only [List.length_cons, leNat, leBytes, h1, h2, ih]

theorem leNat_lt (bs : List Byte) : leNat bs < 256 ^ bs.length := by
  induction bs with
  | nil => simp [leNat]
  | cons b bs ih =>
    have hb := b.isLt
    simp only [leNat, List.length_cons, Nat.pow_succ']
    omega

/-- The bytes of the record word of 16 bytes are the bytes. -/
theorem recordBytes_recordWord {bs : List Byte} (h : bs.length = 16) : recordBytes (recordWord bs) = bs := by
  have hlt : leNat bs < 2 ^ 128 := by
    have := leNat_lt bs
    rw [h] at this
    norm_num at this ⊢
    exact this
  simp only [recordBytes, recordWord, BitVec.toNat_ofNat, Nat.mod_eq_of_lt hlt]
  rw [show Config.recordSize = bs.length from h.symm]
  exact leBytes_leNat bs

/-! ### Bytes of a record in the buffer -/

@[simp] theorem Machine.Memory.readBytes_length (m : Machine.Memory) (a n : Nat) :
    (Machine.Memory.readBytes m a n).length = n := by
  induction n generalizing a with
  | zero => rfl
  | succ n ih => simp [Machine.Memory.readBytes, ih]

/-- The bytes of a fetched record are the 16 bytes at its place in the buffer (20_memory.md R51, R52). -/
theorem Machine.Memory.recordBytes_fetch (m : Machine.Memory) (k : Word) :
    recordBytes (Machine.Memory.fetch m k) = Machine.Memory.readBytes m (Config.recordSize * k.toNat) 16 :=
  recordBytes_recordWord (Machine.Memory.readBytes_length m _ _)

/-! ### Fields -/

/-- The fields of the word of a record are the record's fields. -/
@[simp] theorem Record.ofWord_toWord (r : Record) : Record.ofWord r.toWord = r := by
  obtain ⟨op, reg, rs, a⟩ := r
  simp only [Record.ofWord, Record.toWord, Record.mk.injEq]
  refine ⟨?_, ?_, ?_, ?_⟩ <;>
  · apply BitVec.eq_of_getLsbD_eq
    intro i hi
    simp only [BitVec.getLsbD_extractLsb', BitVec.getLsbD_append, hi, decide_true, Bool.true_and]
    repeat' split
    all_goals first | omega | (congr 1; omega)

/-- The word of a word's fields is the word. -/
@[simp] theorem Record.toWord_ofWord (w : RecordWord) : (Record.ofWord w).toWord = w := by
  apply BitVec.eq_of_getLsbD_eq
  intro i hi
  simp only [Record.ofWord, Record.toWord, BitVec.getLsbD_append, BitVec.getLsbD_extractLsb']
  have pick : ∀ {n j k : Nat}, j < n → k + j = i → (decide (j < n) && w.getLsbD (k + j)) = w.getLsbD i := by
    intro n j k hj hk
    simp [hj, hk]
  repeat' split
  all_goals exact pick (by omega) (by omega)

end Sys2Proof
end

