-- ==== Sys2Proof/Laws/Decode.lean ====
section
/-! SUPPORT. What the opcode map selects and when the decoder answers an instruction (30_encoding.md R74, R78). -/

namespace Sys2Proof

theorem Mnemonic.mem_all (m : Mnemonic) : m ∈ Mnemonic.all := by
  cases m <;> decide

/-- No two operations share an opcode value (30_encoding.md R74). -/
theorem opcodeMap_injective : Function.Injective opcodeMap := by
  intro a b
  cases a <;> cases b <;> decide

/-- The selected operation has the opcode value. -/
theorem opcodeLookup_sound {map : Mnemonic → Byte} {op : Byte} {m : Mnemonic} (h : opcodeLookup map op = some m) :
    map m = op := by
  simpa using List.find?_some h

/-- Under an injective map an operation's opcode value selects it. -/
theorem opcodeLookup_map {map : Mnemonic → Byte} (hinj : Function.Injective map) (m : Mnemonic) :
    opcodeLookup map (map m) = some m := by
  cases h : opcodeLookup map (map m) with
  | none => exact absurd (List.find?_eq_none.mp h m (Mnemonic.mem_all m)) (by simp)
  | some m' => rw [hinj (opcodeLookup_sound h)]

/-- An opcode byte selects no operation exactly where no operation has it. -/
theorem opcodeLookup_eq_none {map : Mnemonic → Byte} {op : Byte} :
    opcodeLookup map op = none ↔ ∀ m, map m ≠ op := by
  simp [opcodeLookup, List.find?_eq_none, Mnemonic.mem_all]

/-- The illegal opcode values of the default map are `0x09` to `0xFF` (30_encoding.md R74). -/
theorem opcodeLookup_none_iff (op : Byte) : opcodeLookup opcodeMap op = none ↔ 9 ≤ op.toNat := by
  revert op
  decide

/-- What a decoded instruction says of the record: its opcode, its reserved bytes, and its operands. -/
theorem decodeWith_ok {map : Mnemonic → Byte} {w : RecordWord} {i : Instr} (h : decodeWith map w = .ok i) :
    ∃ m, map m = (Record.ofWord w).opcode ∧ (Record.ofWord w).reserved = 0 ∧
      i = m.instr (Record.ofWord w).reg (Record.ofWord w).argument := by
  simp only [decodeWith, decodeRecord] at h
  split at h
  · cases h
  · rename_i m hm
    split at h
    · rename_i hz
      cases h
      exact ⟨m, opcodeLookup_sound hm, hz, rfl⟩
    · cases h

/-- A record that decodes is well formed. -/
theorem decodeWith_ok_wf {map : Mnemonic → Byte} {w : RecordWord} {i : Instr} (h : decodeWith map w = .ok i) :
    (Record.ofWord w).wf map = true := by
  obtain ⟨m, hm, hz, -⟩ := decodeWith_ok h
  simp only [Record.wf, Record.opcodeLegal, Record.reservedZero, hz, Bool.and_eq_true, List.any_eq_true]
  exact ⟨⟨m, Mnemonic.mem_all m, by simp [hm]⟩, by decide⟩

theorem Mnemonic.mnemonic_instr (m : Mnemonic) (r : RegIdx) (a : Word) : (m.instr r a).mnemonic = m := by
  cases m <;> rfl

end Sys2Proof
end

