-- ==== Sys2Proof/Laws/Exec.lean ====
section
/-! SUPPORT. What each instruction can do, said once: `exec` answers a next state, and `Effect` is that state. -/

namespace Sys2Proof.Machine

/-- The next state of each instruction, in terms of the shared operations. -/
def Effect (i : Instr) (s t : State) : Prop :=
  match i with
  | .nop => t = s.complete false
  | .inc r => t = (s.writeReg r (s.readReg r + 1)).complete false
  | .dec r => t = (s.writeReg r (s.readReg r - 1)).complete false
  | .dbg r => t = (s.emit (s.readReg r)).complete false
  | .qit => t = s.halt
  | .ldc r a => t = (s.writeReg r a).complete false
  | .cpy r a =>
      (a.toNat < 256 ∧ t = (s.writeReg r (s.readReg (BitVec.ofNat 8 a.toNat))).complete false) ∨
      (256 ≤ a.toNat ∧ t = s.raise .sourceRegisterOutOfRange)
  | .jnz r k =>
      (k.toNat < s.progLen.toNat ∧ s.readReg r ≠ 0 ∧ t = (s.setPc k).complete true) ∨
      (k.toNat < s.progLen.toNat ∧ s.readReg r = 0 ∧ t = s.complete false) ∨
      (s.progLen.toNat ≤ k.toNat ∧ t = s.raise .jumpTargetOutOfRange)
  | .jwz r k =>
      (k.toNat < s.progLen.toNat ∧ s.readReg r = 0 ∧ t = (s.setPc k).complete true) ∨
      (k.toNat < s.progLen.toNat ∧ s.readReg r ≠ 0 ∧ t = s.complete false) ∨
      (s.progLen.toNat ≤ k.toNat ∧ t = s.raise .jumpTargetOutOfRange)

/-- The operands out of range (41_register_ops.md R133, 43_jumps.md R170). -/
theorem sourceRegister_eq (a : Word) :
    sourceRegister a = if a.toNat < 256 then some (BitVec.ofNat 8 a.toNat) else none := rfl

theorem jumpTarget_eq (s : State) (k : Word) :
    jumpTarget s k = if k.toNat < s.progLen.toNat then some k else none := rfl

/-- A conditional jump to a target outside the program faults, taken or not (43_jumps.md R170). -/
theorem jumpWhen_outOfRange {p : Word → Bool} {r : RegIdx} {k : Word} {s : State}
    (h : s.progLen.toNat ≤ k.toNat) : jumpWhen p r k s = .next (s.raise .jumpTargetOutOfRange) := by
  simp [jumpWhen, jumpTarget_eq, Nat.not_lt.mpr h]

/-- A taken jump. -/
theorem jumpWhen_taken {p : Word → Bool} {r : RegIdx} {k : Word} {s : State} (h : k.toNat < s.progLen.toNat)
    (hp : p (s.readReg r) = true) : jumpWhen p r k s = .next ((s.setPc k).complete true) := by
  simp [jumpWhen, jumpTarget_eq, h, hp]

/-- A jump not taken. -/
theorem jumpWhen_notTaken {p : Word → Bool} {r : RegIdx} {k : Word} {s : State} (h : k.toNat < s.progLen.toNat)
    (hp : p (s.readReg r) = false) : jumpWhen p r k s = .next (s.complete false) := by
  simp [jumpWhen, jumpTarget_eq, h, hp]

theorem exec_jnz (r : RegIdx) (k : Word) (s : State) : exec (.jnz r k) s = jumpWhen (fun v => v != 0) r k s := rfl
theorem exec_jwz (r : RegIdx) (k : Word) (s : State) : exec (.jwz r k) s = jumpWhen (fun v => v == 0) r k s := rfl

/-- A halted core is left as QIT leaves it. -/
@[simp] theorem complete_halt (s : State) : s.halt.complete false = s.halt := State.complete_stopped rfl false

/-- `exec` always answers a next state, and it is the instruction's effect. -/
theorem exec_effect (i : Instr) (s : State) : ∃ t, exec i s = .next t ∧ Effect i s t := by
  cases i with
  | nop => exact ⟨_, rfl, rfl⟩
  | inc r => exact ⟨_, rfl, rfl⟩
  | dec r => exact ⟨_, rfl, rfl⟩
  | dbg r => exact ⟨_, rfl, rfl⟩
  | qit => exact ⟨_, rfl, complete_halt s⟩
  | ldc r a => exact ⟨_, rfl, rfl⟩
  | cpy r a =>
    by_cases h : a.toNat < 256
    · exact ⟨_, by simp only [exec, execCpy, sourceRegister_eq, h, if_true], .inl ⟨h, rfl⟩⟩
    · exact ⟨_, by simp only [exec, execCpy, sourceRegister_eq, h, if_false], .inr ⟨by omega, rfl⟩⟩
  | jnz r k =>
    rw [exec_jnz]
    by_cases h : k.toNat < s.progLen.toNat
    · by_cases hz : s.readReg r = 0
      · exact ⟨_, jumpWhen_notTaken h (by simp [hz]), .inr (.inl ⟨h, hz, rfl⟩)⟩
      · exact ⟨_, jumpWhen_taken h (by simpa using hz), .inl ⟨h, hz, rfl⟩⟩
    · exact ⟨_, jumpWhen_outOfRange (Nat.not_lt.mp h), .inr (.inr ⟨Nat.not_lt.mp h, rfl⟩)⟩
  | jwz r k =>
    rw [exec_jwz]
    by_cases h : k.toNat < s.progLen.toNat
    · by_cases hz : s.readReg r = 0
      · exact ⟨_, jumpWhen_taken h (by simp [hz]), .inl ⟨h, hz, rfl⟩⟩
      · exact ⟨_, jumpWhen_notTaken h (by simpa using hz), .inr (.inl ⟨h, hz, rfl⟩)⟩
    · exact ⟨_, jumpWhen_outOfRange (Nat.not_lt.mp h), .inr (.inr ⟨Nat.not_lt.mp h, rfl⟩)⟩

/-- What an instruction can do, from the state it answers. -/
theorem effect_of_exec {i : Instr} {s t : State} (h : exec i s = .next t) : Effect i s t := by
  obtain ⟨u, hu, he⟩ := exec_effect i s
  rw [hu] at h
  cases h
  exact he

/-- No instruction writes the program (10_state.md R36). -/
theorem exec_program {i : Instr} {s t : State} (h : exec i s = .next t) : t.mem = s.mem ∧ t.progLen = s.progLen := by
  have e := effect_of_exec h
  cases i <;> simp only [Effect] at e <;>
    first
    | (subst e; simp)
    | (rcases e with ⟨-, rfl⟩ | ⟨-, rfl⟩ <;> simp)
    | (rcases e with ⟨-, -, rfl⟩ | ⟨-, -, rfl⟩ | ⟨-, rfl⟩ <;> simp)

end Sys2Proof.Machine
end

