-- ==== Sys2Proof/Laws/PerInstr.lean ====
section
/-! SUPPORT. The families of statements about every instruction as syntax. -/

namespace Sys2Proof.Laws.EncodedRecord

/-- The record an instruction encodes to is well formed and carries the instruction's opcode value
(30_encoding.md R74, R80, R84). -/
def Statement (i : Instr) : Prop :=
  (Record.ofWord (encode i)).opcode = opcodeMap i.mnemonic ∧
    (Record.ofWord (encode i)).wf opcodeMap = true

/-- A record made of an operation and two operands is well formed. -/
theorem make_wf (m : Mnemonic) (r : RegIdx) (a : Word) : (Record.make opcodeMap m r a).wf opcodeMap = true := by
  simp only [Record.wf, Record.opcodeLegal, Record.reservedZero, Record.make, Bool.and_eq_true, List.any_eq_true]
  exact ⟨⟨m, Mnemonic.mem_all m, by simp⟩, by decide⟩

/-- The statement for an instruction whose record is made of its operation and operands. -/
theorem of_make {i : Instr} {r : RegIdx} {a : Word} (h : i.toRecord opcodeMap = Record.make opcodeMap i.mnemonic r a) :
    Statement i := by
  simp only [Statement, encode, encodeWith, h, Record.ofWord_toWord, make_wf, and_true]
  rfl

theorem nop : Statement .nop := of_make rfl
theorem inc (r : RegIdx) : Statement (.inc r) := of_make rfl
theorem dec (r : RegIdx) : Statement (.dec r) := of_make rfl
theorem dbg (r : RegIdx) : Statement (.dbg r) := of_make rfl
theorem qit : Statement .qit := of_make rfl
theorem ldc (r : RegIdx) (a : Word) : Statement (.ldc r a) := of_make rfl
theorem cpy (r : RegIdx) (a : Word) : Statement (.cpy r a) := of_make rfl
theorem jnz (r : RegIdx) (k : Word) : Statement (.jnz r k) := of_make rfl
theorem jwz (r : RegIdx) (k : Word) : Statement (.jwz r k) := of_make rfl

end Sys2Proof.Laws.EncodedRecord
end

