-- ==== Sys2Proof/Laws/Step.lean ====
section
/-! SUPPORT. What a step can do, said once (40_execution_cycle.md R102). -/

namespace Sys2Proof.Machine

theorem runState_running_iff {s : State} : s.runState = some .running ↔ s.running = true ∧ s.fault = 0 := by
  unfold State.runState
  split <;> split <;> simp_all

theorem runState_halted_iff {s : State} : s.runState = some .halted ↔ s.running = false ∧ s.fault = 0 := by
  unfold State.runState
  split <;> split <;> simp_all

theorem runState_faulted_iff {s : State} : s.runState = some .faulted ↔ s.running = false ∧ s.fault ≠ 0 := by
  unfold State.runState
  split <;> split <;> simp_all

theorem runState_none_iff {s : State} : s.runState = none ↔ s.running = true ∧ s.fault ≠ 0 := by
  unfold State.runState
  split <;> split <;> simp_all

/-- A step of a `Running` core. -/
theorem step_running {s : State} (hr : s.running = true) (hf : s.fault = 0) : step s = runningStep s := by
  simp [step, runLoopStep, runState_running_iff.mpr ⟨hr, hf⟩]

/-- What a step can do: only a `Running` core steps; at the end it halts; a record that does not decode is a fault
entry; and otherwise the decoded instruction runs. -/
theorem step_cases {s t : State} (h : step s = .next t) :
    s.running = true ∧ s.fault = 0 ∧
      ((¬ s.pc < s.progLen ∧ t = s.halt) ∨
       (s.pc < s.progLen ∧ ∃ e, decode s.fetchRecord = .error e ∧ t = s.raise (causeOf e)) ∨
       (s.pc < s.progLen ∧ ∃ i, decode s.fetchRecord = .ok i ∧ exec i s = .next t)) := by
  simp only [step, runLoopStep] at h
  split at h
  · rename_i hs
    obtain ⟨hr, hf⟩ := runState_running_iff.mp hs
    refine ⟨hr, hf, ?_⟩
    simp only [runningStep] at h
    split at h
    · rename_i hlt
      simp only [runRecord] at h
      split at h
      · rename_i e he
        cases h
        exact .inr (.inl ⟨hlt, e, he, rfl⟩)
      · rename_i i hi
        exact .inr (.inr ⟨hlt, i, hi, h⟩)
    · rename_i hge
      cases h
      exact .inl ⟨hge, rfl⟩
  · cases h
  · cases h
  · cases h

end Sys2Proof.Machine
end

