-- ==== Sys2Proof/Laws/Run.lean ====
section
/-! SUPPORT. Runs: their first step, their composition, and the induction over the states of a run. -/

namespace Sys2Proof.Machine

/-- A run of `n + 1` steps is a step and a run of `n` steps. -/
theorem runFor_succ {n : Nat} {s t : State} (h : runFor (n + 1) s = some t) :
    ∃ u, step s = .next u ∧ runFor n u = some t := by
  simp only [runFor] at h
  split at h
  · rename_i u hu
    exact ⟨u, hu, h⟩
  · cases h
  · cases h

/-- A run goes on from the state it reached. -/
theorem runFor_add {n : Nat} {s t : State} (m : Nat) (h : runFor n s = some t) : runFor (n + m) s = runFor m t := by
  induction n generalizing s with
  | zero =>
    simp only [runFor, Option.some.injEq] at h
    rw [h, Nat.zero_add]
  | succ n ih =>
    obtain ⟨u, hu, ht⟩ := runFor_succ h
    rw [Nat.add_right_comm, runFor, hu]
    exact ih ht

/-- What holds at the first state of a run and is kept by every step holds of every state of the run. -/
theorem Reaches.induct {P : State → Prop} {s t : State} (h : Reaches s t) (h0 : P s)
    (hstep : ∀ u v, P u → step u = .next v → P v) : P t := by
  obtain ⟨n, hn⟩ := h
  induction n generalizing s with
  | zero =>
    simp only [runFor, Option.some.injEq] at hn
    exact hn ▸ h0
  | succ n ih =>
    obtain ⟨u, hu, ht⟩ := runFor_succ hn
    exact ih (hstep s u h0 hu) ht

/-- No step writes the program. -/
theorem step_program {s t : State} (h : step s = .next t) : t.mem = s.mem ∧ t.progLen = s.progLen := by
  rcases (step_cases h).2.2 with ⟨-, rfl⟩ | ⟨-, e, -, rfl⟩ | ⟨-, i, -, hi⟩
  · exact ⟨rfl, rfl⟩
  · exact ⟨rfl, rfl⟩
  · exact exec_program hi

/-- A step fetches a record exactly where an instruction can execute. -/
theorem fetchesRecord_iff {s : State} : fetchesRecord s = true ↔ CanExecute s := by
  simp only [fetchesRecord, Bool.and_eq_true, beq_iff_eq, decide_eq_true_eq, runState_running_iff, CanExecute, and_assoc]

end Sys2Proof.Machine
end

