-- ==== Sys2Proof/Tests/Slice0.lean ====
section
/-! SUPPORT. Tests of single steps, decoding tests, the smoke test of the well-formedness checks, and a witness for the
hypotheses of every statement. Expected results are those of spec/95_test_vectors.md (the table is named at each group)
or are written out from the rule named there. -/

namespace Sys2Proof.Tests

open Sys2Proof Sys2Proof.Machine

/-! ### Helpers -/

/-- The reset state of a program of `n` records, all zero bytes, at index `pc`. -/
def blankAt (pc n : Word) : State := { State.resetWith [] n with pc := pc }

/-- The reset state of a program, at index `pc`. -/
def loaded (is : List Instr) (pc : Word) : State :=
  { State.resetWith (Memory.writeBytes [] 0 (encodeProgram is)) (BitVec.ofNat 64 is.length) with pc := pc }

/-- The next state of an instruction at a state. -/
def after (i : Instr) (s : State) : Option State := nextState? (exec i s)

/-- What a test of one step looks at: `pc`, `running`, `fault`, `out`, and one register. -/
def look (r : RegIdx) (o : Option State) : Option (Word × Bool × BitVec 3 × List Word × Word) :=
  o.map fun t => (t.pc, t.running, t.fault, t.out, t.readReg r)

/-! ### Well-formedness: an ill-formed record for each check (30_encoding.md R79, R80) -/

theorem test_wf_refuses_illegal_opcode : Record.wf opcodeMap ⟨0x09, 0, 0, 0⟩ = false := by decide
theorem test_wf_refuses_reserved_bytes : Record.wf opcodeMap ⟨0x00, 0, 1, 0⟩ = false := by decide
theorem test_wf_accepts_ignored_fields : Record.wf opcodeMap ⟨0x00, 0xFF, 0, 0xFFFFFFFFFFFFFFFF⟩ = true := by decide

/-! ### Decoding (95_test_vectors.md L2-1): the record's bytes, `B[0]` first -/

theorem test_decode_nop : decode (recordWord [0x00, 0xFF, 0, 0, 0, 0, 0, 0, 0xFF, 0xFF, 0xFF, 0xFF, 0xFF, 0xFF, 0xFF, 0xFF])
    = .ok .nop := by decide
theorem test_decode_inc : decode (recordWord [0x01, 0x2A, 0, 0, 0, 0, 0, 0, 0, 0, 0, 0, 0, 0, 0, 0])
    = .ok (.inc 42) := by decide
theorem test_decode_dec : decode (recordWord [0x02, 0xFF, 0, 0, 0, 0, 0, 0, 0, 0, 0, 0, 0, 0, 0, 0])
    = .ok (.dec 255) := by decide
theorem test_decode_dbg : decode (recordWord [0x03, 0x07, 0, 0, 0, 0, 0, 0, 0, 0, 0, 0, 0, 0, 0, 0])
    = .ok (.dbg 7) := by decide
theorem test_decode_qit : decode (recordWord [0x04, 0, 0, 0, 0, 0, 0, 0, 0, 0, 0, 0, 0, 0, 0, 0])
    = .ok .qit := by decide
theorem test_decode_ldc :
    decode (recordWord [0x05, 0x01, 0, 0, 0, 0, 0, 0, 0xEF, 0xCD, 0xAB, 0x89, 0x67, 0x45, 0x23, 0x01])
    = .ok (.ldc 1 0x0123456789ABCDEF) := by decide
theorem test_decode_cpy : decode (recordWord [0x06, 0x02, 0, 0, 0, 0, 0, 0, 0, 0x01, 0, 0, 0, 0, 0, 0])
    = .ok (.cpy 2 256) := by decide
theorem test_decode_jnz : decode (recordWord [0x07, 0, 0, 0, 0, 0, 0, 0, 0x01, 0, 0, 0, 0, 0, 0, 0])
    = .ok (.jnz 0 1) := by decide
theorem test_decode_jwz : decode (recordWord [0x08, 0x03, 0, 0, 0, 0, 0, 0, 0x07, 0, 0, 0, 0, 0, 0, 0])
    = .ok (.jwz 3 7) := by decide
theorem test_decode_illegal_opcode : decode (recordWord [0x09, 0, 0, 0, 0, 0, 0, 0, 0, 0, 0, 0, 0, 0, 0, 0])
    = .error .illegalOpcode := by decide
theorem test_decode_reserved : decode (recordWord [0x04, 0, 0, 0, 0, 0, 0, 0x80, 0, 0, 0, 0, 0, 0, 0, 0])
    = .error .reservedNonZero := by decide
theorem test_decode_priority : decode (recordWord [0x0A, 0, 0x01, 0, 0, 0, 0, 0, 0, 0, 0, 0, 0, 0, 0, 0])
    = .error .illegalOpcode := by decide

/-- 95_test_vectors.md L3-4, index 2. -/
theorem test_encode_cpy : recordBytes (encode (.cpy 3 256))
    = [0x06, 0x03, 0, 0, 0, 0, 0, 0, 0, 0x01, 0, 0, 0, 0, 0, 0] := by decide
/-- 95_test_vectors.md L3-3, index 0. -/
theorem test_encode_ldc : recordBytes (encode (.ldc 1 0xFFFFFFFFFFFFFFFF))
    = [0x05, 0x01, 0, 0, 0, 0, 0, 0, 0xFF, 0xFF, 0xFF, 0xFF, 0xFF, 0xFF, 0xFF, 0xFF] := by decide
/-- 20_memory.md R54: fewer than 16 bytes are no record. -/
theorem test_decode_partial : decodeBytes [0x04] = .error .partialRecord := by decide
/-- 30_encoding.md R73, R74: QIT's record word is 4. -/
theorem test_decodeTableWord : decodeTableWord 128 4 = some .qit := by decide

/-! ### Register operations (95_test_vectors.md L2-2) -/

theorem test_inc : look 3 (after (.inc 3) ((blankAt 0 4).writeReg 3 7)) = some (1, true, 0, [], 8) := by decide
theorem test_inc_wraps :
    look 3 (after (.inc 3) ((blankAt 0 4).writeReg 3 0xFFFFFFFFFFFFFFFF)) = some (1, true, 0, [], 0) := by decide
theorem test_dec_wraps : look 0 (after (.dec 0) (blankAt 0 4)) = some (1, true, 0, [], 0xFFFFFFFFFFFFFFFF) := by decide
theorem test_dec_top : look 255 (after (.dec 255) ((blankAt 0 4).writeReg 255 0x8000000000000000))
    = some (1, true, 0, [], 0x7FFFFFFFFFFFFFFF) := by decide
theorem test_ldc : look 9 (after (.ldc 9 0xFFFFFFFFFFFFFFFF) (blankAt 0 4))
    = some (1, true, 0, [], 0xFFFFFFFFFFFFFFFF) := by decide
theorem test_cpy : look 2 (after (.cpy 2 1) ((blankAt 0 4).writeReg 1 42)) = some (1, true, 0, [], 42) := by decide
theorem test_cpy_out_of_range : look 0 (after (.cpy 0 0x100000000) ((blankAt 0 4).writeReg 0 11))
    = some (0, false, 3, [], 11) := by decide

/-! ### NOP, DBG, QIT (95_test_vectors.md L2-3) -/

theorem test_nop : look 0 (after .nop (blankAt 2 10)) = some (3, true, 0, [], 0) := by decide
theorem test_nop_implicit_halt : look 0 (after .nop (blankAt 9 10)) = some (10, false, 0, [], 0) := by decide
theorem test_dbg : look 1 (after (.dbg 1) (((blankAt 0 2).emit 9).writeReg 1 0xFFFFFFFFFFFFFFFF))
    = some (1, true, 0, [9, 18446744073709551615], 0xFFFFFFFFFFFFFFFF) := by decide
theorem test_qit : look 0 (after .qit (blankAt 4 10)) = some (4, false, 0, [], 0) := by decide

/-! ### Jumps (95_test_vectors.md L2-4) -/

theorem test_jnz_taken : look 0 (after (.jnz 0 1) ((blankAt 3 5).writeReg 0 4)) = some (1, true, 0, [], 4) := by decide
theorem test_jnz_not_taken_target_out_of_range :
    look 0 (after (.jnz 0 5) (blankAt 0 5)) = some (0, false, 4, [], 0) := by decide
theorem test_jwz_taken_to_itself : look 1 (after (.jwz 1 0) (blankAt 0 1)) = some (0, true, 0, [], 0) := by decide
theorem test_jwz_not_taken : look 1 (after (.jwz 1 7) ((blankAt 5 8).writeReg 1 3)) = some (6, true, 0, [], 3) := by decide

/-! ### The step (95_test_vectors.md L2-5, L3) -/

/-- L3-10, on `State.reset`. -/
theorem test_step_empty_program : look 0 (nextState? (step State.reset)) = some (0, false, 0, [], 0) := by decide
/-- L3-1, the first step. -/
theorem test_step_ldc : look 0 (nextState? (step (loaded [.ldc 0 5, .dbg 0] 0))) = some (1, true, 0, [], 5) := by decide
/-- L3-7, the second record: the fault keeps `pc`. -/
theorem test_step_illegal_opcode :
    look 7 (nextState? (step ((loaded [.ldc 7 3, .qit] 0).withFetchWord 128 0x09))) = some (0, false, 1, [], 0) := by
  decide
/-- 10_state.md R37: the DBG port. -/
theorem test_dbg_port : dbgPort ((loaded [.dbg 0] 0).writeReg 0 5) = some 5 := by decide
/-- 30_encoding.md R85. -/
theorem test_asm : asmText (.cpy 2 1) = "CPY r2, r1" ∧ asmText (.cpy 2 256) = "CPY r2, 256" := by decide

/-! ### Launch (70_reset_and_hazards.md R230, R233; 60_exceptions.md R206) -/

theorem test_create_partial_record : create [0x04] = .error .partialRecord := by decide

/-! ### Witnesses -/

/-- A state that can execute, at the last record of its program. -/
theorem witness_canExecute : CanExecute (blankAt 9 10) := ⟨rfl, rfl, by decide⟩
/-- A state that can execute at the largest index a program can have. -/
theorem witness_canExecute_top : CanExecute (blankAt 0xFFFFFFFFFFFFFFFE 0xFFFFFFFFFFFFFFFF) := ⟨rfl, rfl, by decide⟩

/-- Each instruction, executed by a state. -/
theorem witness_executes_nop : Executes (loaded [.nop] 0) .nop := ⟨⟨rfl, rfl, by decide⟩, by decide⟩
theorem witness_executes_dbg : Executes (loaded [.dbg 7] 0) (.dbg 7) := ⟨⟨rfl, rfl, by decide⟩, by decide⟩
theorem witness_executes_qit : Executes (loaded [.qit] 0) .qit := ⟨⟨rfl, rfl, by decide⟩, by decide⟩
theorem witness_executes_cpy_256 : Executes (loaded [.cpy 2 256] 0) (.cpy 2 256) := ⟨⟨rfl, rfl, by decide⟩, by decide⟩
theorem witness_executes_jnz_self : Executes (loaded [.jnz 1 0] 0) (.jnz 1 0) := ⟨⟨rfl, rfl, by decide⟩, by decide⟩
theorem witness_executes_jwz_self : Executes (loaded [.jwz 1 0] 0) (.jwz 1 0) := ⟨⟨rfl, rfl, by decide⟩, by decide⟩
theorem witness_executes_jwz_end : Executes (loaded [.jwz 1 1] 0) (.jwz 1 1) := ⟨⟨rfl, rfl, by decide⟩, by decide⟩

/-- A record that does not decode, fetched, for each decode fault. -/
theorem witness_illegal_opcode_fetched : CanExecute ((blankAt 0 1).withFetchWord 128 0x09) ∧
    wordOpcode ((blankAt 0 1).withFetchWord 128 0x09).fetchRecord = 9 ∧
    decode ((blankAt 0 1).withFetchWord 128 0x09).fetchRecord = .error .illegalOpcode :=
  ⟨⟨rfl, rfl, by decide⟩, by decide, by decide⟩
theorem witness_reserved_fetched : CanExecute ((blankAt 0 1).withFetchWord 128 0x10008) ∧
    wordOpcode ((blankAt 0 1).withFetchWord 128 0x10008).fetchRecord = 8 ∧
    wordReserved ((blankAt 0 1).withFetchWord 128 0x10008).fetchRecord = 1 :=
  ⟨⟨rfl, rfl, by decide⟩, by decide, by decide⟩
/-- Both decode faults at once (60_exceptions.md R202). -/
theorem witness_both_decode_faults_fetched : CanExecute ((blankAt 0 1).withFetchWord 128 0x1000A) ∧
    wordOpcode ((blankAt 0 1).withFetchWord 128 0x1000A).fetchRecord = 10 ∧
    wordReserved ((blankAt 0 1).withFetchWord 128 0x1000A).fetchRecord = 1 :=
  ⟨⟨rfl, rfl, by decide⟩, by decide, by decide⟩

/-- FetchReadsRecordLittleEndian: its one hypothesis. -/
theorem witness_FetchReadsRecordLittleEndian : ∃ s, CanExecute s := ⟨_, witness_canExecute_top⟩

/-- DecoderFollowsTheCaseTable: a word for each clause, at the edges of the opcode range. -/
theorem witness_DecoderFollowsTheCaseTable :
    9 ≤ wordOpcode 0x09 ∧ 9 ≤ wordOpcode 0xFF ∧ (wordOpcode 0x10008 < 9 ∧ wordReserved 0x10008 ≠ 0) ∧
    (wordReserved 0x00 = 0 ∧ wordOpcode 0x00 = 0) ∧ (wordReserved 0xFF01 = 0 ∧ wordOpcode 0xFF01 = 1) ∧
    (wordReserved 0x02 = 0 ∧ wordOpcode 0x02 = 2) ∧ (wordReserved 0x03 = 0 ∧ wordOpcode 0x03 = 3) ∧
    (wordReserved 0x04 = 0 ∧ wordOpcode 0x04 = 4) ∧ (wordReserved 0x05 = 0 ∧ wordOpcode 0x05 = 5) ∧
    (wordReserved 0x06 = 0 ∧ wordOpcode 0x06 = 6) ∧ (wordReserved 0x07 = 0 ∧ wordOpcode 0x07 = 7) ∧
    (wordReserved 0x08 = 0 ∧ wordOpcode 0x08 = 8) := by decide

/-- RoundTripUnderEveryOpcodeMap: an injective map other than the default. -/
theorem witness_RoundTripUnderEveryOpcodeMap : Function.Injective fun m => 0xFF - opcodeMap m := by
  intro a b
  cases a <;> cases b <;> decide

/-- DecoderAgreesWithTheOpcodeTable: a word that matches a row and decodes. -/
theorem witness_DecoderAgreesWithTheOpcodeTable :
    (⟨.jwz, 0x08, opcodeRowMask⟩ : OpcodeRow) ∈ opcodeTable ∧ (0x308 : RecordWord) &&& opcodeRowMask = 0x08 ∧
    decode 0x308 = .ok (.jwz 3 0) := by decide

/-- RegisterHoldsWhatWasWritten: two registers, and a run whose instructions write no register. -/
theorem witness_RegisterHoldsWhatWasWritten : (255 : RegIdx) ≠ 0 ∧
    (∃ t, runFor 1 (loaded [.nop] 0) = some t) ∧
    (∀ m u j, m < 1 → runFor m (loaded [.nop] 0) = some u → Executes u j → destOf j ≠ some 0) := by
  refine ⟨by decide, Option.isSome_iff_exists.mp (by decide), ?_⟩
  intro m u j hm hu hj
  obtain rfl : m = 0 := by omega
  cases hu
  have e := witness_executes_nop.2.symm.trans hj.2
  cases e
  decide

/-- InstructionsReadAndWriteTheRegistersOfTheTable: two states that differ in a register CPY does not read. -/
theorem witness_InstructionsReadAndWriteTheRegistersOfTheTable :
    (∃ t, exec (.cpy 2 1) (blankAt 0 4) = .next t) ∧ destOf (.cpy 2 1) ≠ some 3 ∧ CanExecute (blankAt 0 4) ∧
    (blankAt 0 4).writeReg 5 9 = { blankAt 0 4 with x := ((blankAt 0 4).writeReg 5 9).x } ∧
    (∀ q, sourceOf (.cpy 2 1) = some q → ((blankAt 0 4).writeReg 5 9).readReg q = (blankAt 0 4).readReg q) := by
  refine ⟨⟨_, rfl⟩, by decide, ⟨rfl, rfl, by decide⟩, rfl, fun q hq => ?_⟩
  obtain rfl : 1 = q := by simpa [sourceOf] using hq
  decide

/-- The instruction statements: a record word of each operation (`IsRecord`), with the fields it ignores not zero. -/
theorem witness_IsRecord :
    IsRecord 0x0000000000000001000000000000FF00 0x00 255 1 ∧ IsRecord 0x0000000000000001000000000000FF01 0x01 255 1 ∧
    IsRecord 0x0000000000000001000000000000FF02 0x02 255 1 ∧ IsRecord 0x0000000000000001000000000000FF03 0x03 255 1 ∧
    IsRecord 0x0000000000000001000000000000FF04 0x04 255 1 ∧ IsRecord 0x0000000000000001000000000000FF05 0x05 255 1 ∧
    IsRecord 0x0000000000000001000000000000FF06 0x06 255 1 ∧ IsRecord 0x0000000000000001000000000000FF07 0x07 255 1 ∧
    IsRecord 0x0000000000000001000000000000FF08 0x08 255 1 := by
  simp only [IsRecord]
  decide

/-- NopOnlyAdvances, IncIncrementsItsRegister, DecDecrementsItsRegister, LdcLoadsItsConstant, QitHaltsAtItsIndex: their
state hypothesis. -/
theorem witness_instruction_state : ∃ s, CanExecute s := ⟨_, witness_canExecute⟩

/-- CpyCopiesOrFaults: the source indices on both sides of the bound. -/
theorem witness_CpyCopiesOrFaults : CanExecute (blankAt 0 4) ∧ (255 : Word).toNat = (255 : RegIdx).toNat ∧
    256 ≤ (256 : Word).toNat := ⟨⟨rfl, rfl, by decide⟩, by decide, by decide⟩

/-- DbgEmitsItsRegister: its clause about the port. -/
theorem witness_DbgEmitsItsRegister : ∃ s r, Executes s (.dbg r) := ⟨_, _, witness_executes_dbg⟩

/-- JnzJumpsWhenNotZero and JwzJumpsWhenZero: targets on both sides of the bound, and a register of each kind. -/
theorem witness_conditional_jumps : CanExecute ((blankAt 0 5).writeReg 1 3) ∧ (4 : Word) < (blankAt 0 5).progLen ∧
    (blankAt 0 5).progLen ≤ 5 ∧ ((blankAt 0 5).writeReg 1 3).readReg 1 ≠ 0 ∧ ((blankAt 0 5).writeReg 1 3).readReg 0 = 0 :=
  ⟨⟨rfl, rfl, by decide⟩, by decide, by decide, by decide, by decide⟩

/-- JumpTargetIsCheckedBeforeTheCondition: both jumps, with targets on both sides of the bound. -/
theorem witness_JumpTargetIsCheckedBeforeTheCondition : CanExecute (blankAt 0 5) ∧
    (blankAt 0 5).progLen.toNat ≤ (5 : Word).toNat ∧ (4 : Word).toNat < (blankAt 0 5).progLen.toNat :=
  ⟨⟨rfl, rfl, by decide⟩, by decide, by decide⟩

/-- StepRunsTheDecodedInstruction. -/
theorem witness_StepRunsTheDecodedInstruction : ∃ s i, CanExecute s ∧ decode s.fetchRecord = .ok i :=
  ⟨_, _, witness_executes_nop⟩

/-- PcUpdateAndBoundaryCheck: a step of each clause (a fault, QIT, a taken jump, an advance to the end). -/
theorem witness_PcUpdateAndBoundaryCheck :
    (Executes (loaded [.cpy 2 256] 0) (.cpy 2 256) ∧
      look 0 (nextState? (step (loaded [.cpy 2 256] 0))) = some (0, false, 3, [], 0)) ∧
    (Executes (loaded [.qit] 0) .qit ∧ look 0 (nextState? (step (loaded [.qit] 0))) = some (0, false, 0, [], 0)) ∧
    (Executes (loaded [.jwz 1 0] 0) (.jwz 1 0) ∧ takenTarget (loaded [.jwz 1 0] 0) (.jwz 1 0) = some 0 ∧
      look 0 (nextState? (step (loaded [.jwz 1 0] 0))) = some (0, true, 0, [], 0)) ∧
    (Executes (loaded [.nop] 0) .nop ∧ takenTarget (loaded [.nop] 0) .nop = none ∧
      look 0 (nextState? (step (loaded [.nop] 0))) = some (1, false, 0, [], 0)) :=
  ⟨⟨witness_executes_cpy_256, by decide⟩, ⟨witness_executes_qit, by decide⟩,
   ⟨witness_executes_jwz_self, by decide, by decide⟩, ⟨witness_executes_nop, by decide, by decide⟩⟩

/-- RunStateTransitions: a state for each row of R101 not shown above. -/
theorem witness_RunStateTransitions :
    Inv State.reset ∧ ((blankAt 0 0).runState = some .running ∧ (blankAt 0 0).progLen ≤ (blankAt 0 0).pc) ∧
    (Executes (loaded [.jwz 1 1] 0) (.jwz 1 1) ∧ (loaded [.jwz 1 1] 0).progLen ≤ 1) ∧
    (takenTarget (loaded [.nop] 0) .nop = none ∧ (loaded [.nop] 0).pc.toNat + 1 = (loaded [.nop] 0).progLen.toNat) ∧
    (takenTarget (loaded [.jwz 1 0] 0) (.jwz 1 0) ≠ none) ∧ (blankAt 2 10).pc.toNat + 1 < (blankAt 2 10).progLen.toNat ∧
    (blankAt 4 10).halt.runState = some .halted ∧ ((blankAt 4 10).raise .illegalOpcode).runState = some .faulted :=
  ⟨⟨⟨rfl, rfl⟩, by decide, by decide, fun _ => rfl, fun _ => .inr ⟨rfl, rfl⟩⟩, by decide, ⟨witness_executes_jwz_end, by decide⟩, by decide, by decide, by decide, by decide, by decide⟩

/-- RunStateTransitions, its rows of an instruction that neither faults nor halts, by decode error and by operand
check: the records of the witnesses above. -/
theorem witness_RunStateTransitions_execute : (Instr.nop ≠ .qit) ∧ (∀ r a, Instr.nop = .cpy r a → a.toNat < 256) ∧
    (∀ r k, Instr.nop = .jnz r k ∨ Instr.nop = .jwz r k → k < (loaded [.nop] 0).progLen) := by
  exact ⟨by decide, (fun _ _ h => nomatch h), (fun _ _ h => by rcases h with h | h <;> cases h)⟩

/-- OnlyARunningCoreSteps: a state of each pair of `running` and `fault`, and a step. -/
theorem witness_OnlyARunningCoreSteps :
    ((blankAt 4 10).halt.running = false ∧ (blankAt 4 10).halt.fault = 0) ∧
    (((blankAt 4 10).raise .illegalOpcode).running = false ∧ ((blankAt 4 10).raise .illegalOpcode).fault ≠ 0) ∧
    ({ blankAt 4 10 with fault := 1 }.running = true ∧ { blankAt 4 10 with fault := 1 }.fault ≠ 0) ∧
    (nextState? (step (blankAt 4 10))).isSome = true := by decide

/-- EndCheckHaltsWithoutExecuting: a core at the end, and a step after which the core goes on. -/
theorem witness_EndCheckHaltsWithoutExecuting :
    ((blankAt 3 3).running = true ∧ (blankAt 3 3).fault = 0 ∧ (blankAt 3 3).progLen ≤ (blankAt 3 3).pc) ∧
    look 0 (nextState? (step (blankAt 1 3))) = some (2, true, 0, [], 0) := by decide

/-- ARunningCoreAlwaysSteps. -/
theorem witness_ARunningCoreAlwaysSteps : State.reset.runState = some .running := by decide

/-- StepReadsNothingButTheFetchedRecord: two programs that agree on the fetched record alone. -/
theorem witness_StepReadsNothingButTheFetchedRecord :
    Memory.fetch (loaded [.nop, .qit] 0).mem (loaded [.nop, .nop] 0).pc = (loaded [.nop, .nop] 0).fetchRecord ∧
    (loaded [.nop, .qit] 0).mem ≠ (loaded [.nop, .nop] 0).mem ∧
    (nextState? (step (loaded [.nop, .nop] 0))).isSome = true := by decide

/-- IllegalOpcodeFaultsWhenFetched, ReservedBytesFaultWhenFetched: the fetched records above meet their hypotheses. -/
theorem witness_decode_faults : (∃ s, CanExecute s ∧ 9 ≤ wordOpcode s.fetchRecord) ∧
    (∃ s, CanExecute s ∧ wordReserved s.fetchRecord ≠ 0) :=
  ⟨⟨_, witness_illegal_opcode_fetched.1, by decide⟩, ⟨_, witness_reserved_fetched.1, by decide⟩⟩

/-- FaultCodesAreExactlyTheTable: a step of each code (a jump to the end for code 4). -/
theorem witness_FaultCodesAreExactlyTheTable :
    look 0 (nextState? (step ((blankAt 0 1).withFetchWord 128 0x09))) = some (0, false, 1, [], 0) ∧
    look 0 (nextState? (step ((blankAt 0 1).withFetchWord 128 0x10008))) = some (0, false, 2, [], 0) ∧
    look 0 (nextState? (step (loaded [.cpy 2 256] 0))) = some (0, false, 3, [], 0) ∧
    look 0 (nextState? (step (loaded [.jwz 1 1] 0))) = some (0, false, 4, [], 0) ∧
    look 0 (nextState? (step (loaded [.cpy 2 255] 0))) = some (1, false, 0, [], 0) :=
  ⟨by decide, by decide, by decide, by decide, by decide⟩

/-- FaultingStepChangesOnlyRunFlagAndFault, FaultIsWrittenAtMostOncePerRun: a step that faults, and the run of that
step. -/
theorem witness_faulting_step : ∃ t, step (loaded [.cpy 2 256] 0) = .next t ∧ t.fault ≠ 0 ∧
    runFor 1 (loaded [.cpy 2 256] 0) = some t ∧ runFor (1 + 0) (loaded [.cpy 2 256] 0) = some t := by
  have h : ((nextState? (step (loaded [.cpy 2 256] 0))).map fun t => t.fault) = some 3 := by decide
  cases hs : step (loaded [.cpy 2 256] 0) with
  | next t =>
    rw [hs] at h
    have hf : t.fault = 3 := by simpa [nextState?] using h
    exact ⟨t, rfl, by rw [hf]; decide, by simp only [runFor, hs], by simp only [runFor, hs]⟩
  | fault r => rw [hs] at h; cases h
  | refused r => rw [hs] at h; cases h

/-- OutputIsTheDbgValuesInOrder, ProgramIsNeverChanged, ExecutedCountIsTheNumberOfFetches: a run of one step with a DBG,
and one from the end of a program. -/
theorem witness_runs : (runFor 1 (loaded [.dbg 7] 0)).isSome = true ∧ (runFor 1 (blankAt 3 3)).isSome = true ∧
    (loaded [.dbg 7] 0).pc < (loaded [.dbg 7] 0).progLen ∧ (blankAt 3 3).progLen ≤ (blankAt 3 3).pc := by decide

/-- AJumpToItselfRunsForever: a state of each clause. -/
theorem witness_AJumpToItselfRunsForever :
    (Executes ((loaded [.jnz 1 0] 0).writeReg 1 2) (.jnz 1 ((loaded [.jnz 1 0] 0).writeReg 1 2).pc) ∧
      ((loaded [.jnz 1 0] 0).writeReg 1 2).readReg 1 ≠ 0) ∧
    (Executes (loaded [.jwz 1 0] 0) (.jwz 1 (loaded [.jwz 1 0] 0).pc) ∧ (loaded [.jwz 1 0] 0).readReg 1 = 0) :=
  ⟨⟨⟨⟨rfl, rfl, by decide⟩, by decide⟩, by decide⟩, ⟨witness_executes_jwz_self, by decide⟩⟩

/-- ARunHasExactlyOneEnd: a state of each kind of run: one that ends normally, one that ends in error (the faulting step
above), one that runs forever (the jump to itself above). -/
theorem witness_ARunHasExactlyOneEnd : (loaded [.cpy 2 256] 0).runState ≠ none ∧
    (loaded [.jwz 1 0] 0).runState ≠ none ∧ (blankAt 4 10).halt.runState ≠ none ∧
    EndsNormally (blankAt 4 10).halt (blankAt 4 10).halt ∧
    EndsInError ((blankAt 4 10).raise .illegalOpcode) ((blankAt 4 10).raise .illegalOpcode) :=
  ⟨by decide, by decide, by decide, ⟨⟨0, rfl⟩, by decide⟩, ⟨⟨0, rfl⟩, by decide⟩⟩

/-- RunStateIsTheTableAndTheFourthPairIsUnreachable: a state reached from reset. -/
theorem witness_Reaches : ∃ m n t, Reaches (State.resetWith m n) t := ⟨[], 1, _, 0, rfl⟩

/-- AWellFormedProgramNeverTakesADecodeFault: a launched program, all of whose records decode, that takes an operand
fault. -/
theorem witness_AWellFormedProgramNeverTakesADecodeFault :
    CleanReset (loaded [.cpy 2 256] 0) ∧
    ProgramWellFormed (loaded [.cpy 2 256] 0).mem (loaded [.cpy 2 256] 0).progLen ∧
    (∃ t, Reaches (loaded [.cpy 2 256] 0) t ∧ ∃ u, step t = .next u ∧ u.fault ≠ 0) := by
  refine ⟨rfl, fun k hk => ?_, ?_⟩
  · obtain rfl : k = 0 := by
      have h : (loaded [.cpy 2 256] 0).progLen = 1 := rfl
      rw [h] at hk
      bv_omega
    exact ⟨_, witness_executes_cpy_256.2⟩
  · obtain ⟨u, hu, hf, -⟩ := witness_faulting_step
    exact ⟨_, ⟨0, rfl⟩, u, hu, hf⟩

/-- EveryStepKeepsTheWellFormedLaunch: the launched program above, whose one step takes an operand fault. -/
theorem witness_EveryStepKeepsTheWellFormedLaunch :
    ProgramWellFormed (loaded [.cpy 2 256] 0).mem (loaded [.cpy 2 256] 0).progLen ∧
    (loaded [.cpy 2 256] 0).fault ≠ 1 ∧ (loaded [.cpy 2 256] 0).fault ≠ 2 ∧
    (∃ t, step (loaded [.cpy 2 256] 0) = .next t ∧ t.fault ≠ 0) ∧
    (Executes (loaded [.jwz 1 1] 0) (.jwz 1 1) ∧ (loaded [.jwz 1 1] 0).progLen ≤ 1) := by
  obtain ⟨t, ht, hf, -⟩ := witness_faulting_step
  exact ⟨witness_AWellFormedProgramNeverTakesADecodeFault.2.1, by decide, by decide, ⟨t, ht, hf⟩,
    witness_executes_jwz_end, by decide⟩

/-- InvariantAtReset, EveryStepKeepsTheInvariant: a canonical program, and a state with the invariant that steps. -/
theorem witness_Inv : ProgramOk (loaded [.cpy 2 256] 0).mem (loaded [.cpy 2 256] 0).progLen ∧
    Inv (blankAt 9 10) ∧ (nextState? (step (blankAt 9 10))).isSome = true :=
  ⟨⟨by decide, by decide⟩, ⟨⟨rfl, rfl⟩, by decide, by decide, fun _ => rfl, fun _ => .inl (by decide)⟩, by decide⟩

/-- CreateBindsEveryRecordOfTheBuffer, BadBuffersAreRejected: buffers of a valid length and of a bad one, and an index
inside. -/
theorem witness_buffers : BufferLengthValid (recordBytes (encode .qit)) ∧ BufferLengthValid [] ∧
    ([0x04] : List Byte).length % 16 ≠ 0 ∧
    (∃ (bytes : List Byte) (n : Nat), bytes.length = 16 * n ∧ 2 ^ 64 ≤ n) :=
  ⟨⟨1, rfl, by decide⟩, ⟨0, rfl, by decide⟩, by decide,
   ⟨List.replicate (16 * 2 ^ 64) 0, 2 ^ 64, List.length_replicate, Nat.le_refl _⟩⟩

/-- HostReadsOnlyAStoppedCore: a core in each state, and indices on both sides of the bound. -/
theorem witness_HostReadsOnlyAStoppedCore : (blankAt 4 10).running = true ∧ (blankAt 4 10).halt.running = false ∧
    regReadPort (blankAt 4 10).halt 255 = .ok 0 ∧ regReadPort (blankAt 4 10).halt 256 = .error .indexOutOfRange := by decide

/-- PlacedWordIsTheNextFetched. -/
theorem witness_PlacedWordIsTheNextFetched : Memory.wf State.reset.mem = true := rfl

end Sys2Proof.Tests
end

/-! SUPPORT. The statements about the state (10_state.md): how a step ends, the invariant, the register file, the
output, the run state, and the host's reads. -/

namespace Sys2Proof.Machine

/-! ### How a step ends -/

/-- The state after a step, as far as `pc`, `running` and `fault` go: a fault entry, a halt, an instruction that wrote
at most the registers and the output before the advance, or a taken jump (40_execution_cycle.md R102, R107). -/
inductive StepEnd (s : State) : State → Prop where
  | faulted (c : Cause) : StepEnd s (s.raise c)
  | halted : StepEnd s s.halt
  | completed (u : State) (hpc : s.pc < s.progLen) (hu : u = { s with x := u.x, out := u.out }) :
      StepEnd s (u.complete false)
  | jumped (k : Word) (hk : k < s.progLen) : StepEnd s ((s.setPc k).complete true)

/-- An instruction inside the program ends its step in one of these ways. -/
theorem exec_stepEnd {i : Instr} {s t : State} (hpc : s.pc < s.progLen) (h : exec i s = .next t) : StepEnd s t := by
  have e := effect_of_exec h
  cases i with
  | nop | inc | dec | dbg | ldc => exact e ▸ .completed _ hpc rfl
  | qit => exact e ▸ .halted
  | cpy r a =>
    obtain ⟨-, rfl⟩ | ⟨-, rfl⟩ := e
    · exact .completed _ hpc rfl
    · exact .faulted _
  | jnz r k | jwz r k =>
    obtain ⟨hk, -, rfl⟩ | ⟨-, -, rfl⟩ | ⟨-, rfl⟩ := e
    · exact .jumped k hk
    · exact .completed s hpc rfl
    · exact .faulted _

/-- Every step ends in one of these ways. -/
theorem step_stepEnd {s t : State} (h : step s = .next t) : StepEnd s t := by
  obtain ⟨-, -, ⟨-, rfl⟩ | ⟨-, e, -, rfl⟩ | ⟨hpc, i, -, hi⟩⟩ := step_cases h
  · exact .halted
  · exact .faulted _
  · exact exec_stepEnd hpc hi

/-! ### The invariant -/

theorem Cause.code_le (c : Cause) : c.code ≤ 4 := by
  cases c <;> decide

theorem Inv.resetWith {m : Memory} {n : Word} (h : ProgramOk m n) : Inv (State.resetWith m n) where
  program := h
  pcLe := Nat.zero_le _
  codes := Nat.zero_le _
  status _ := rfl
  inside _ := by
    by_cases hn : n = 0
    · exact .inr ⟨hn, rfl⟩
    · exact .inl (show 0 < n by bv_omega)

theorem Inv.raise {s : State} (h : Inv s) (c : Cause) : Inv (s.raise c) where
  program := h.program
  pcLe := h.pcLe
  codes := c.code_le
  status hr := nomatch hr
  inside hr := nomatch hr

theorem Inv.halt {s : State} (h : Inv s) : Inv s.halt where
  program := h.program
  pcLe := h.pcLe
  codes := h.codes
  status hr := nomatch hr
  inside hr := nomatch hr

/-- Registers and output are not part of the invariant. -/
theorem Inv.of_registers_out {s u : State} (h : Inv s) (hu : u = { s with x := u.x, out := u.out }) : Inv u := by
  rw [hu]
  exact ⟨h.program, h.pcLe, h.codes, h.status, h.inside⟩

/-- A jump inside the program. -/
theorem Inv.setPc {s : State} (h : Inv s) {k : Word} (hk : k < s.progLen) : Inv (s.setPc k) where
  program := h.program
  pcLe := BitVec.le_of_lt hk
  codes := h.codes
  status := h.status
  inside _ := .inl hk

/-- Advance and boundary check from inside the program: the boundary check stops a core that reached the end. -/
theorem Inv.complete {s : State} (h : Inv s) (hpc : s.pc < s.progLen) (j : Bool) : Inv (s.complete j) where
  program := by simpa using h.program
  pcLe := by
    rw [State.complete_pc, State.complete_progLen]
    split
    · bv_omega
    · exact h.pcLe
  codes := by simpa using h.codes
  status hr := by
    rw [State.complete_running, Bool.and_eq_true] at hr
    simpa using h.status hr.1
  inside hr := by
    rw [State.complete_running, Bool.and_eq_true, decide_eq_true_eq] at hr
    simpa using Or.inl hr.2

theorem Inv.stepEnd {s t : State} (h : Inv s) (e : StepEnd s t) : Inv t := by
  cases e with
  | faulted c => exact h.raise c
  | halted => exact h.halt
  | completed u hpc hu =>
    have hin : u.pc < u.progLen := by
      rw [hu]
      exact hpc
    exact (h.of_registers_out hu).complete hin false
  | jumped k hk => exact (h.setPc hk).complete hk true

/-- Settles O40: every way a step ends keeps the invariant. -/
theorem everyStepKeepsTheInvariant : Obligations.EveryStepKeepsTheInvariant :=
  fun _ _ hs h => hs.stepEnd (step_stepEnd h)

/-- Settles O39: both clauses are reset with a canonical program. -/
theorem invariantAtReset : Obligations.InvariantAtReset :=
  ⟨fun _ _ h => Inv.resetWith h, Inv.resetWith ⟨rfl, rfl⟩⟩

/-! ### The register file -/

/-- An instruction leaves every register but its destination as it was (10_state.md R24). -/
theorem exec_readReg_of_not_dest {i : Instr} {s t : State} (h : exec i s = .next t) {j : RegIdx}
    (hj : destOf i ≠ some j) : t.readReg j = s.readReg j := by
  have e := effect_of_exec h
  have other : ∀ {r : RegIdx} (v : Word), some r ≠ some j →
      ((s.writeReg r v).complete false).readReg j = s.readReg j := by
    intro r v hr
    rw [State.readReg_complete, State.readReg_writeReg_other s v fun e => hr (congrArg some e.symm)]
  cases i with
  | nop | dbg | qit =>
    obtain rfl := e
    simp
  | inc | dec | ldc => exact e ▸ other _ hj
  | cpy r a =>
    obtain ⟨-, rfl⟩ | ⟨-, rfl⟩ := e
    · exact other _ hj
    · exact State.readReg_raise s _ j
  | jnz r k | jwz r k => obtain ⟨-, -, rfl⟩ | ⟨-, -, rfl⟩ | ⟨-, rfl⟩ := e <;> simp

/-- A step that executes no instruction with destination `i` leaves register `i` as it was. -/
theorem step_readReg_of_not_dest {s t : State} (h : step s = .next t) {i : RegIdx}
    (hi : ∀ j, Executes s j → destOf j ≠ some i) : t.readReg i = s.readReg i := by
  obtain ⟨hr, hf, ⟨-, rfl⟩ | ⟨-, e, -, rfl⟩ | ⟨hpc, j, hj, he⟩⟩ := step_cases h
  · exact State.readReg_halt s i
  · exact State.readReg_raise s _ i
  · exact exec_readReg_of_not_dest he (hi j ⟨⟨hr, hf, hpc⟩, hj⟩)

/-- A run after its first step. -/
theorem runFor_succ_of_step {s u : State} (h : step s = .next u) (n : Nat) : runFor (n + 1) s = runFor n u := by
  simp only [runFor, h]

/-- A run that executes no instruction with destination `i` leaves register `i` as it was. -/
theorem runFor_readReg_of_not_dest {n : Nat} {s t : State} {i : RegIdx} (h : runFor n s = some t)
    (hi : ∀ m u j, m < n → runFor m s = some u → Executes u j → destOf j ≠ some i) :
    t.readReg i = s.readReg i := by
  induction n generalizing s with
  | zero =>
    cases h
    rfl
  | succ n ih =>
    obtain ⟨u, hu, ht⟩ := runFor_succ h
    calc t.readReg i = u.readReg i :=
          ih ht fun m v j hm hv => hi (m + 1) v j (Nat.succ_lt_succ hm) ((runFor_succ_of_step hu m).trans hv)
      _ = s.readReg i := step_readReg_of_not_dest hu fun j => hi 0 s j (Nat.succ_pos n) rfl

/-- Settles O8, its run clause by induction on the number of steps. -/
theorem registerHoldsWhatWasWritten : Obligations.RegisterHoldsWhatWasWritten :=
  ⟨fun s i v => ⟨State.readReg_writeReg_same s i v, fun _ hj => State.readReg_writeReg_other s v hj⟩,
   fun _ _ _ _ => runFor_readReg_of_not_dest⟩

/-! ### What an instruction reads of the register file -/

/-- CPY of a register (41_register_ops.md R133). -/
theorem exec_cpy_inRange (r : RegIdx) {a : Word} (h : a.toNat < 256) (s : State) :
    exec (.cpy r a) s = .next ((s.writeReg r (s.readReg (BitVec.ofNat 8 a.toNat))).complete false) := by
  simp only [exec, execCpy, sourceRegister_eq, h, if_true]

/-- CPY with a source that names no register (41_register_ops.md R133). -/
theorem exec_cpy_outOfRange (r : RegIdx) {a : Word} (h : 256 ≤ a.toNat) (s : State) :
    exec (.cpy r a) s = .next (s.raise .sourceRegisterOutOfRange) := by
  simp only [exec, execCpy, sourceRegister_eq, Nat.not_lt.mpr h, if_false]

/-- `s'` is `s` with other registers. -/
def SameButRegisters (s s' : State) : Prop := s' = { s with x := s'.x }

namespace SameButRegisters

variable {s s' : State}

theorem writeReg (h : SameButRegisters s s') (r : RegIdx) (v v' : Word) :
    SameButRegisters (s.writeReg r v) (s'.writeReg r v') := by
  rw [SameButRegisters, h]
  rfl

theorem emit (h : SameButRegisters s s') {v v' : Word} (hv : v' = v) : SameButRegisters (s.emit v) (s'.emit v') := by
  rw [SameButRegisters, h, hv]
  rfl

theorem raise (h : SameButRegisters s s') (c : Cause) : SameButRegisters (s.raise c) (s'.raise c) := by
  rw [SameButRegisters, h]
  rfl

theorem halt (h : SameButRegisters s s') : SameButRegisters s.halt s'.halt := by
  rw [SameButRegisters, h]
  rfl

theorem setPc (h : SameButRegisters s s') (k : Word) : SameButRegisters (s.setPc k) (s'.setPc k) := by
  rw [SameButRegisters, h]
  rfl

theorem progLen (h : SameButRegisters s s') : s'.progLen = s.progLen := by
  rw [h]

/-- Advance and boundary check read no register. -/
theorem complete (h : SameButRegisters s s') (j : Bool) : SameButRegisters (s.complete j) (s'.complete j) := by
  obtain ⟨hpc, hr⟩ : (s'.complete j).pc = (s.complete j).pc ∧ (s'.complete j).running = (s.complete j).running := by
    apply State.complete_congr <;> rw [h]
  rw [SameButRegisters, State.complete_eq s', State.complete_eq s, hpc, hr, h]

/-- A conditional jump depends on no register but the tested one (43_jumps.md R170). -/
theorem jumpWhen (h : SameButRegisters s s') (p : Word → Bool) {r : RegIdx} (k : Word)
    (hr : s'.readReg r = s.readReg r) :
    ∃ t t', Machine.jumpWhen p r k s = .next t ∧ Machine.jumpWhen p r k s' = .next t' ∧ SameButRegisters t t' := by
  by_cases hk : k.toNat < s.progLen.toNat
  · have hk' : k.toNat < s'.progLen.toNat := h.progLen ▸ hk
    cases hp : p (s.readReg r) with
    | true => exact ⟨_, _, jumpWhen_taken hk hp, jumpWhen_taken hk' (hr ▸ hp), (h.setPc k).complete true⟩
    | false => exact ⟨_, _, jumpWhen_notTaken hk hp, jumpWhen_notTaken hk' (hr ▸ hp), h.complete false⟩
  · have hge : s.progLen.toNat ≤ k.toNat := Nat.not_lt.mp hk
    exact ⟨_, _, jumpWhen_outOfRange hge, jumpWhen_outOfRange (h.progLen ▸ hge), h.raise _⟩

end SameButRegisters

/-- What an instruction does depends on no register but its source (10_state.md R24). -/
theorem exec_sameButRegisters (i : Instr) {s s' : State} (h : SameButRegisters s s')
    (hsrc : ∀ q, sourceOf i = some q → s'.readReg q = s.readReg q) :
    ∃ t t', exec i s = .next t ∧ exec i s' = .next t' ∧ SameButRegisters t t' ∧
      (t.fault = 0 → ∀ d, destOf i = some d → t'.readReg d = t.readReg d) := by
  have written : ∀ {r : RegIdx} {v v' : Word}, v' = v → ∀ d, some r = some d →
      ((s'.writeReg r v').complete false).readReg d = ((s.writeReg r v).complete false).readReg d := by
    rintro r v _ rfl _ ⟨⟩
    simp
  cases i with
  | nop => exact ⟨_, _, rfl, rfl, h.complete false, fun _ _ hd => nomatch hd⟩
  | inc r =>
    exact ⟨_, _, rfl, rfl, (h.writeReg r _ _).complete false, fun _ => written (congrArg (· + 1) (hsrc r rfl))⟩
  | dec r =>
    exact ⟨_, _, rfl, rfl, (h.writeReg r _ _).complete false, fun _ => written (congrArg (· - 1) (hsrc r rfl))⟩
  | dbg r => exact ⟨_, _, rfl, rfl, (h.emit (hsrc r rfl)).complete false, fun _ _ hd => nomatch hd⟩
  | qit => exact ⟨_, _, rfl, rfl, h.halt.complete false, fun _ _ hd => nomatch hd⟩
  | ldc r a => exact ⟨_, _, rfl, rfl, (h.writeReg r _ _).complete false, fun _ => written rfl⟩
  | cpy r a =>
    by_cases ha : a.toNat < 256
    · have hq : s'.readReg (BitVec.ofNat 8 a.toNat) = s.readReg (BitVec.ofNat 8 a.toNat) := hsrc _ (if_pos ha)
      exact ⟨_, _, exec_cpy_inRange r ha s, exec_cpy_inRange r ha s', (h.writeReg r _ _).complete false,
        fun _ => written hq⟩
    · have hge : 256 ≤ a.toNat := Nat.not_lt.mp ha
      exact ⟨_, _, exec_cpy_outOfRange r hge s, exec_cpy_outOfRange r hge s', h.raise _, fun hf => nomatch hf⟩
  | jnz r k =>
    obtain ⟨t, t', ht, ht', hsame⟩ := h.jumpWhen (fun v => v != 0) k (hsrc r rfl)
    exact ⟨t, t', ht, ht', hsame, fun _ _ hd => nomatch hd⟩
  | jwz r k =>
    obtain ⟨t, t', ht, ht', hsame⟩ := h.jumpWhen (fun v => v == 0) k (hsrc r rfl)
    exact ⟨t, t', ht, ht', hsame, fun _ _ hd => nomatch hd⟩

/-- Settles O9: the frame of a write, and the dependence on the source register alone. -/
theorem instructionsReadAndWriteTheRegistersOfTheTable :
    Obligations.InstructionsReadAndWriteTheRegistersOfTheTable :=
  ⟨fun _ _ _ h _ hj => exec_readReg_of_not_dest h hj, fun i _ _ _ h hsrc => exec_sameButRegisters i h hsrc⟩

/-! ### The output -/

/-- The value an instruction appends to the output: DBG's register (42_system.md R151). -/
def emitted (s : State) : Instr → Option Word
  | .dbg r => some (s.readReg r)
  | _ => none

theorem emitted_eq_some {s : State} {i : Instr} {v : Word} :
    emitted s i = some v ↔ ∃ r, i = .dbg r ∧ v = s.readReg r := by
  cases i with
  | dbg r => simp [emitted, eq_comm]
  | _ => simp [emitted]

/-- An instruction appends to the output what it emits, and nothing else. -/
theorem exec_out {i : Instr} {s t : State} (h : exec i s = .next t) : t.out = s.out ++ (emitted s i).toList := by
  have e := effect_of_exec h
  cases i with
  | nop | inc | dec | dbg | qit | ldc =>
    obtain rfl := e
    simp [emitted]
  | cpy r a => obtain ⟨-, rfl⟩ | ⟨-, rfl⟩ := e <;> simp [emitted]
  | jnz r k | jwz r k => obtain ⟨-, -, rfl⟩ | ⟨-, -, rfl⟩ | ⟨-, rfl⟩ := e <;> simp [emitted]

/-- A step that executes an instruction shows what it emits on the DBG port. -/
theorem dbgPort_of_executes {s : State} {i : Instr} (h : Executes s i) : dbgPort s = emitted s i := by
  obtain ⟨hs, hi⟩ := h
  simp only [dbgPort, fetchesRecord_iff.mpr hs, hi]
  cases i <;> rfl

/-- A step that executes no instruction leaves the DBG port silent. -/
theorem dbgPort_of_not_executes {s : State} (h : ∀ i, ¬ Executes s i) : dbgPort s = none := by
  by_cases hs : fetchesRecord s = true
  · cases hd : decode s.fetchRecord with
    | ok i => exact absurd ⟨fetchesRecord_iff.mp hs, hd⟩ (h i)
    | error e => simp [dbgPort, hd]
  · simp [dbgPort, hs]

/-- The DBG port shows a value in exactly the steps that execute DBG (10_state.md R37). -/
theorem dbgPort_eq_some {s : State} {v : Word} :
    dbgPort s = some v ↔ ∃ r, Executes s (.dbg r) ∧ v = s.readReg r := by
  constructor
  · intro hv
    by_cases h : ∃ i, Executes s i
    · obtain ⟨i, hi⟩ := h
      obtain ⟨r, rfl, hr⟩ := emitted_eq_some.mp ((dbgPort_of_executes hi).symm.trans hv)
      exact ⟨r, hi, hr⟩
    · rw [dbgPort_of_not_executes (not_exists.mp h)] at hv
      cases hv
  · rintro ⟨r, hr, rfl⟩
    exact dbgPort_of_executes hr

/-- A step appends to the output what the DBG port shows, and nothing else. -/
theorem step_out {s t : State} (h : step s = .next t) : t.out = s.out ++ (dbgPort s).toList := by
  obtain ⟨hr, hf, ⟨hge, rfl⟩ | ⟨-, e, he, rfl⟩ | ⟨hpc, i, hi, hx⟩⟩ := step_cases h
  · have : dbgPort s = none := dbgPort_of_not_executes fun i hi => hge hi.1.2.2
    simp [this]
  · have : dbgPort s = none := dbgPort_of_not_executes fun i hi => nomatch he.symm.trans hi.2
    simp [this]
  · rw [dbgPort_of_executes ⟨⟨hr, hf, hpc⟩, hi⟩, exec_out hx]

/-- A step emits the register of the DBG it executes, or executes no DBG and emits nothing. -/
theorem step_out_cases {s t : State} (h : step s = .next t) :
    (∃ r, Executes s (.dbg r) ∧ t.out = s.out ++ [s.readReg r] ∧ dbgPort s = some (s.readReg r)) ∨
    ((∀ r, ¬ Executes s (.dbg r)) ∧ t.out = s.out ∧ dbgPort s = none) := by
  have ho := step_out h
  cases hp : dbgPort s with
  | some v =>
    obtain ⟨r, hr, rfl⟩ := dbgPort_eq_some.mp hp
    rw [hp] at ho
    exact .inl ⟨r, hr, ho, rfl⟩
  | none =>
    have hno : ∀ r, ¬ Executes s (.dbg r) := fun r hr =>
      nomatch hp.symm.trans (dbgPort_eq_some.mpr ⟨r, hr, rfl⟩)
    exact .inr ⟨hno, by simpa [hp] using ho, rfl⟩

/-- A run appends the values of the DBG port in execution order. -/
theorem runFor_out {n : Nat} {s t : State} (h : runFor n s = some t) : t.out = s.out ++ dbgValues n s := by
  induction n generalizing s with
  | zero =>
    cases h
    simp [dbgValues]
  | succ n ih =>
    obtain ⟨u, hu, ht⟩ := runFor_succ h
    simp [dbgValues, hu, ih ht, step_out hu]

/-- Settles O32, its run clause by induction on the number of steps. -/
theorem outputIsTheDbgValuesInOrder : Obligations.OutputIsTheDbgValuesInOrder :=
  ⟨fun _ _ => step_out_cases, fun _ _ _ => runFor_out⟩

/-! ### The run state -/

/-- A core that goes on after a step holds no fault: a fault entry stops it, and no other way to end a step writes
`fault` (60_exceptions.md R201). -/
theorem step_fault_of_running {s t : State} (h : step s = .next t) (hr : t.running = true) : t.fault = 0 := by
  have hf : s.fault = 0 := (step_cases h).2.1
  cases step_stepEnd h with
  | faulted c => cases hr
  | halted => exact hf
  | completed u hpc hu =>
    rw [State.complete_fault, hu]
    exact hf
  | jumped k hk => simpa using hf

/-- No run from reset reaches a running core with a fault (10_state.md R33). -/
theorem fault_of_reaches_resetWith {m : Memory} {n : Word} {t : State} (h : Reaches (State.resetWith m n) t) :
    t.running = true → t.fault = 0 :=
  h.induct (P := fun u => u.running = true → u.fault = 0) (fun _ => rfl) fun _ _ _ hstep => step_fault_of_running hstep

/-- Settles O37: the table, and the induction over the states of a run from reset. -/
theorem runStateIsTheTableAndTheFourthPairIsUnreachable :
    Obligations.RunStateIsTheTableAndTheFourthPairIsUnreachable :=
  ⟨fun _ => ⟨runState_running_iff, runState_halted_iff, runState_faulted_iff⟩,
   fun _ _ _ h ⟨hr, hf⟩ => hf (fault_of_reaches_resetWith h hr)⟩

/-! ### The host's reads -/

theorem whenStopped_running {α : Type} {s : State} (h : s.running = true) (v : α) :
    whenStopped s v = .error .coreRunning := if_pos h

theorem whenStopped_stopped {α : Type} {s : State} (h : s.running = false) (v : α) : whenStopped s v = .ok v := by
  simp [whenStopped, h]

/-- A request for an index that names a register. -/
theorem regReadPort_toNat (s : State) (r : RegIdx) : regReadPort s r.toNat = whenStopped s (s.readReg r) := by
  simp [regReadPort, r.isLt]

theorem regReadPort_outOfRange (s : State) {n : Nat} (h : 256 ≤ n) : regReadPort s n = .error .indexOutOfRange :=
  if_neg (Nat.not_lt.mpr h)

/-- Settles O44: every read goes through `whenStopped`, after the index check of the register port. -/
theorem hostReadsOnlyAStoppedCore : Obligations.HostReadsOnlyAStoppedCore := by
  refine ⟨fun _ => rfl, fun s r h => ?running, fun s r h => ?stopped, fun s _ => regReadPort_outOfRange s⟩
  case running =>
    rw [regReadPort_toNat]
    exact ⟨whenStopped_running h _, whenStopped_running h _, whenStopped_running h _⟩
  case stopped =>
    rw [regReadPort_toNat]
    exact ⟨whenStopped_stopped h _, whenStopped_stopped h _, whenStopped_stopped h _⟩

end Sys2Proof.Machine

/-! SUPPORT. The statements about the program buffer (20_memory.md): no run changes it, a buffer of valid length is
bound whole at reset, and any other is rejected when it is built. -/

namespace Sys2Proof.Machine

/-! ### The program along a run -/

/-- No run writes the program. -/
theorem runFor_program {n : Nat} {s t : State} (h : runFor n s = some t) : t.mem = s.mem ∧ t.progLen = s.progLen :=
  Reaches.induct (P := fun u => u.mem = s.mem ∧ u.progLen = s.progLen) ⟨n, h⟩ ⟨rfl, rfl⟩
    fun _ _ ⟨hmem, hlen⟩ hstep =>
      have ⟨hmem', hlen'⟩ := step_program hstep
      ⟨hmem'.trans hmem, hlen'.trans hlen⟩

/-- The same buffer and length are the same program, byte for byte. -/
theorem ProgramStable.of_eq {s t : State} (hmem : t.mem = s.mem) (hlen : t.progLen = s.progLen) : ProgramStable s t :=
  ⟨hlen, hmem, fun a => congrArg (Memory.read · a) hmem⟩

/-- Settles O33: a run keeps the buffer, and a fetch reads nothing else. -/
theorem programIsNeverChanged : Obligations.ProgramIsNeverChanged := fun _ _ _ h =>
  have ⟨hmem, hlen⟩ := runFor_program h
  ⟨.of_eq hmem hlen, fun k => congrArg (Memory.fetch · k) hmem⟩

/-! ### Building a buffer -/

/-- 20_memory.md R54. -/
theorem buildProgram_partialRecord {bytes : List Byte} (h : bytes.length % 16 ≠ 0) :
    buildProgram bytes = .error .partialRecord := if_pos h

/-- The length in records of a buffer whose byte length is a multiple of the record size decides the rest. -/
theorem buildProgram_of_length {bytes : List Byte} {n : Nat} (h : bytes.length = 16 * n) :
    buildProgram bytes =
      if 2 ^ 64 ≤ n then .error .tooLong else .ok (Memory.writeBytes [] 0 bytes, BitVec.ofNat 64 n) := by
  have hmod : bytes.length % 16 = 0 := by omega
  have hdiv : bytes.length / 16 = n := by omega
  simp only [buildProgram, hmod, hdiv, ne_eq, not_true_eq_false, if_false]

theorem create_of_buildProgram_error {bytes : List Byte} {e : BuildError} (h : buildProgram bytes = .error e) :
    create bytes = .error e := by
  simp only [create, h]

theorem create_of_buildProgram_ok {bytes : List Byte} {m : Memory} {n : Word} (h : buildProgram bytes = .ok (m, n)) :
    create bytes = .ok (State.resetWith m n) := by
  simp only [create, h]

/-- Settles O43: `create` answers what building the buffer rejects. -/
theorem badBuffersAreRejected : Obligations.BadBuffersAreRejected :=
  ⟨fun _ h => create_of_buildProgram_error (buildProgram_partialRecord h),
   fun _ _ hlen hn => create_of_buildProgram_error ((buildProgram_of_length hlen).trans (if_pos hn))⟩

/-! ### The records of a buffer -/

theorem Memory.readBytes_eq_map (m : Memory) (a n : Nat) :
    Memory.readBytes m a n = (List.range' a n).map (Memory.read m) := by
  induction n generalizing a with
  | zero => rfl
  | succ n ih => simp [Memory.readBytes, List.range'_succ, ih]

/-- A read inside a longer read is that part of it. -/
theorem Memory.readBytes_slice (m : Memory) (a : Nat) {k n len : Nat} (h : k + n ≤ len) :
    Memory.readBytes m (a + k) n = ((Memory.readBytes m a len).drop k).take n := by
  have hn : n ≤ len - k := by omega
  simp [Memory.readBytes_eq_map, ← List.map_drop, ← List.map_take, List.drop_range', List.take_range'_of_length_ge hn]

/-- A buffer built from a list of bytes lies inside its `n` records, in canonical form. -/
theorem programOk_of_length {bytes : List Byte} {n : Word} (h : bytes.length = 16 * n.toNat) :
    ProgramOk (Memory.writeBytes [] 0 bytes) n :=
  ⟨Memory.writeBytes_wf rfl 0 bytes, Memory.writeBytes_within rfl 0 bytes ((Nat.zero_add _).trans_le h.le)⟩

/-- Record `k` of a buffer built from a list of bytes is its bytes `16 * k` to `16 * k + 15` (20_memory.md R51). -/
theorem recordBytes_fetch_writeBytes {bytes : List Byte} {k : Word} (h : 16 * k.toNat + 16 ≤ bytes.length) :
    recordBytes (Memory.fetch (Memory.writeBytes [] 0 bytes) k) = (bytes.drop (16 * k.toNat)).take 16 := by
  have hslice := Memory.readBytes_slice (Memory.writeBytes [] 0 bytes) 0 h
  rwa [Memory.readBytes_writeBytes rfl, Nat.zero_add, ← Memory.recordBytes_fetch] at hslice

/-- Settles O42: a valid length passes both checks of the build, and the records are the parts of the buffer. -/
theorem createBindsEveryRecordOfTheBuffer : Obligations.CreateBindsEveryRecordOfTheBuffer := by
  rintro bytes ⟨n, hlen, hn⟩
  have hbuild : buildProgram bytes = .ok (Memory.writeBytes [] 0 bytes, BitVec.ofNat 64 n) :=
    (buildProgram_of_length hlen).trans (if_neg (Nat.not_le.mpr hn))
  have hN : bytes.length = 16 * (BitVec.ofNat 64 n).toNat := by
    rw [BitVec.toNat_ofNat, Nat.mod_eq_of_lt hn, hlen]
  refine ⟨_, create_of_buildProgram_ok hbuild, rfl, programOk_of_length hN, hN, fun k hk => ?_⟩
  have hkN : k.toNat < (BitVec.ofNat 64 n).toNat := hk
  exact recordBytes_fetch_writeBytes (by omega)

end Sys2Proof.Machine

/-! SUPPORT. The statements about the encoding (30_encoding.md): the record word as a number, the bytes of an encoded
record, the decoder's case table and the opcode table, and the fault entry of a record that does not decode. -/

namespace Sys2Proof

open Machine

/-! ### The fields of the record word as numbers (R73) -/

@[simp] theorem Record.ofWord_opcode_toNat (w : RecordWord) : (Record.ofWord w).opcode.toNat = w.toNat % 2 ^ 8 := by
  simp [Record.ofWord]

@[simp] theorem Record.ofWord_reg_toNat (w : RecordWord) :
    (Record.ofWord w).reg.toNat = w.toNat / 2 ^ 8 % 2 ^ 8 := by
  simp [Record.ofWord, Nat.shiftRight_eq_div_pow]

@[simp] theorem Record.ofWord_reserved_toNat (w : RecordWord) :
    (Record.ofWord w).reserved.toNat = w.toNat / 2 ^ 16 % 2 ^ 48 := by
  simp [Record.ofWord, Nat.shiftRight_eq_div_pow]

/-- The argument is the top field: nothing stands above it. -/
@[simp] theorem Record.ofWord_argument_toNat (w : RecordWord) :
    (Record.ofWord w).argument.toNat = w.toNat / 2 ^ 64 := by
  have hw : w.toNat < 2 ^ 128 := w.isLt
  have hlt : w.toNat / 2 ^ 64 < 2 ^ 64 := by omega
  simp only [Record.ofWord, BitVec.extractLsb'_toNat, Nat.shiftRight_eq_div_pow, Nat.mod_eq_of_lt hlt]

/-- The word of a record is its fields at their places. -/
theorem Record.toWord_toNat (r : Record) :
    r.toWord.toNat = r.opcode.toNat + 2 ^ 8 * r.reg.toNat + 2 ^ 16 * r.reserved.toNat + 2 ^ 64 * r.argument.toNat := by
  have hop := Record.ofWord_opcode_toNat r.toWord
  have hreg := Record.ofWord_reg_toNat r.toWord
  have hres := Record.ofWord_reserved_toNat r.toWord
  have harg := Record.ofWord_argument_toNat r.toWord
  rw [Record.ofWord_toWord] at hop hreg hres harg
  omega

/-- A word has the fields of a record exactly where it is the record's word. -/
theorem Record.ofWord_eq_iff {w : RecordWord} {r : Record} : Record.ofWord w = r ↔ w = r.toWord :=
  ⟨fun h => h ▸ (Record.toWord_ofWord w).symm, fun h => h ▸ Record.ofWord_toWord r⟩

/-! ### The bytes of an encoded record (R84) -/

/-- Byte `j` of a number is the number shifted right by `8 * j`. -/
theorem leBytes_eq_map (n v : Nat) : leBytes n v = (List.range n).map fun j => BitVec.ofNat 8 (v >>> (8 * j)) := by
  induction n generalizing v with
  | zero => rfl
  | succ n ih =>
    have shift : ∀ j, (v / 256) >>> (8 * j) = v >>> (8 * (j + 1)) := fun j => by
      rw [Nat.mul_succ, Nat.add_comm, Nat.shiftRight_add, Nat.shiftRight_eq_div_pow v 8]
    simp only [leBytes, ih, List.range_succ_eq_map, List.map_cons, List.map_map, shift]
    rfl

/-- The bytes of the argument, least significant first. -/
theorem leBytes_word (a : Word) : leBytes 8 a.toNat = (List.range 8).map fun j => a.extractLsb' (8 * j) 8 :=
  leBytes_eq_map 8 a.toNat

/-- The bytes of a word are the 16 bytes that have its value. -/
theorem recordBytes_eq_of_leNat {bs : List Byte} {w : RecordWord} (hlen : bs.length = 16)
    (hval : leNat bs = w.toNat) : recordBytes w = bs := by
  have hword : recordWord bs = w := by rw [recordWord, hval, BitVec.ofNat_toNat, BitVec.setWidth_eq]
  rw [← hword, recordBytes_recordWord hlen]

theorem makeRecord_eq (m : Mnemonic) (r : RegIdx) (a : Word) :
    makeRecord m r a = [opcodeMap m, r] ++ List.replicate 6 0 ++ leBytes 8 a.toNat := by
  apply recordBytes_eq_of_leNat (by simp)
  have harg : leNat (leBytes 8 a.toNat) = a.toNat := (leNat_leBytes 8 _).trans (Nat.mod_eq_of_lt a.isLt)
  simp only [List.replicate, List.cons_append, List.nil_append, leNat, harg, Record.toWord_toNat, Record.make,
    BitVec.ofNat_eq_ofNat, BitVec.toNat_ofNat, Nat.zero_mod]
  omega

/-! ### What the decoder answers (R78) -/

/-- The record of an operation and its operands decodes to the instruction. -/
theorem decodeRecord_make {map : Mnemonic → Byte} (hinj : Function.Injective map) (m : Mnemonic) (r : RegIdx)
    (a : Word) : decodeRecord map (Record.make map m r a) = .ok (m.instr r a) := by
  simp [decodeRecord, Record.make, opcodeLookup_map hinj]

theorem decode_make_toWord (m : Mnemonic) (r : RegIdx) (a : Word) :
    decode (Record.make opcodeMap m r a).toWord = .ok (m.instr r a) := by
  rw [decode, decodeWith, Record.ofWord_toWord, decodeRecord_make opcodeMap_injective]

/-- Settles O4: the bytes have the value of the record's word, and the word decodes to the operation. -/
theorem encodeThenDecodeReturnsTheInstruction : Obligations.EncodeThenDecodeReturnsTheInstruction := by
  intro m r a
  constructor
  · rw [makeRecord_eq, leBytes_word]
  · rw [makeRecord, recordWord_recordBytes, decode_make_toWord]

/-- The words that decode to an instruction are those of its operation and of operands it is made of. -/
theorem decode_eq_ok_iff {w : RecordWord} {i : Instr} : decode w = .ok i ↔
    ∃ r a, w = (Record.make opcodeMap i.mnemonic r a).toWord ∧ i.mnemonic.instr r a = i := by
  constructor
  · intro h
    obtain ⟨m, hop, hres, rfl⟩ := decodeWith_ok h
    have hrec : Record.ofWord w = Record.make opcodeMap m (Record.ofWord w).reg (Record.ofWord w).argument := by
      rw [Record.make, hop, ← hres]
    rw [Mnemonic.mnemonic_instr]
    exact ⟨_, _, Record.ofWord_eq_iff.mp hrec, rfl⟩
  · rintro ⟨r, a, rfl, hi⟩
    rw [decode_make_toWord, hi]

/-- An opcode value of `0x09` or more encodes no instruction (R79). -/
theorem decode_illegalOpcode {w : RecordWord} (h : 9 ≤ wordOpcode w) : decode w = .error .illegalOpcode := by
  have hnone : opcodeLookup opcodeMap (Record.ofWord w).opcode = none := by
    rw [opcodeLookup_none_iff, Record.ofWord_opcode_toNat]
    exact h
  simp only [decode, decodeWith, decodeRecord, hnone]

/-- A legal opcode with a reserved byte that is not zero (R80). -/
theorem decode_reservedNonZero {w : RecordWord} (hop : wordOpcode w < 9) (hres : wordReserved w ≠ 0) :
    decode w = .error .reservedNonZero := by
  have hne : (Record.ofWord w).reserved ≠ 0 := fun h => hres <| by
    rw [wordReserved, ← Record.ofWord_reserved_toNat, h]
    rfl
  cases hm : opcodeLookup opcodeMap (Record.ofWord w).opcode with
  | none =>
    rw [opcodeLookup_none_iff, Record.ofWord_opcode_toNat] at hm
    exact absurd hm (Nat.not_le.mpr hop)
  | some m => simp only [decode, decodeWith, decodeRecord, hm, hne, if_false]

/-- A word is the record word of an operation and two operands. -/
theorem isRecord_iff {w : RecordWord} {m : Mnemonic} {r : RegIdx} {a : Word} :
    IsRecord w (opcodeMap m).toNat r a ↔ w = (Record.make opcodeMap m r a).toWord := by
  rw [← BitVec.toNat_inj, Record.toWord_toNat]
  simp [IsRecord, Record.make]

/-- A word with zero in the reserved bytes is the record word of its fields. -/
theorem isRecord_fields {w : RecordWord} (hres : wordReserved w = 0) :
    IsRecord w (wordOpcode w) (wordReg w) (wordArgument w) := by
  have hw : w.toNat < 2 ^ 128 := w.isLt
  simp only [IsRecord, wordOpcode, wordReserved, wordReg, wordArgument, BitVec.toNat_ofNat] at hres ⊢
  omega

/-- The record word of an operation decodes to it, whatever the operands (R78, R81). -/
theorem decode_of_isRecord {w : RecordWord} {m : Mnemonic} {r : RegIdx} {a : Word}
    (h : IsRecord w (opcodeMap m).toNat r a) : decode w = .ok (m.instr r a) := by
  rw [isRecord_iff.mp h, decode_make_toWord]

/-- The row of the case table for an operation (R78). -/
theorem decode_of_opcode {w : RecordWord} (m : Mnemonic) (hres : wordReserved w = 0)
    (hop : wordOpcode w = (opcodeMap m).toNat) : decode w = .ok (m.instr (wordReg w) (wordArgument w)) :=
  decode_of_isRecord (hop ▸ isRecord_fields hres)

/-- Settles O3: the two errors, and one row for each operation. -/
theorem decoderFollowsTheCaseTable : Obligations.DecoderFollowsTheCaseTable := fun _ =>
  ⟨decode_illegalOpcode, decode_reservedNonZero, fun hres =>
    ⟨decode_of_opcode .nop hres, decode_of_opcode .inc hres, decode_of_opcode .dec hres, decode_of_opcode .dbg hres,
      decode_of_opcode .qit hres, decode_of_opcode .ldc hres, decode_of_opcode .cpy hres, decode_of_opcode .jnz hres,
      decode_of_opcode .jwz hres⟩⟩

/-- Settles O6: the words an instruction decodes from, read as numbers. -/
theorem wordsOfAnInstructionDifferInIgnoredFieldsOnly : Obligations.WordsOfAnInstructionDifferInIgnoredFieldsOnly := by
  intro w i
  simp only [isRecord_iff]
  exact decode_eq_ok_iff

/-! ### The opcode table (R74) -/

/-- The row of an operation in the opcode table: the word of its record with zero operands, under the mask. -/
def opcodeRow (m : Mnemonic) : OpcodeRow := ⟨m, (Record.make opcodeMap m 0 0).toWord, opcodeRowMask⟩

theorem opcodeTable_eq_map : opcodeTable = Mnemonic.all.map opcodeRow := by decide

theorem mem_opcodeTable {row : OpcodeRow} : row ∈ opcodeTable ↔ ∃ m, opcodeRow m = row := by
  simp [opcodeTable_eq_map, Mnemonic.mem_all]

theorem Record.ofWord_and (w v : RecordWord) : Record.ofWord (w &&& v) =
    ⟨(Record.ofWord w).opcode &&& (Record.ofWord v).opcode, (Record.ofWord w).reg &&& (Record.ofWord v).reg,
      (Record.ofWord w).reserved &&& (Record.ofWord v).reserved,
      (Record.ofWord w).argument &&& (Record.ofWord v).argument⟩ := by
  simp only [Record.ofWord, BitVec.extractLsb'_and]

/-- The mask keeps the opcode and the reserved bytes. -/
theorem Record.ofWord_and_mask (w : RecordWord) :
    Record.ofWord (w &&& opcodeRowMask) = ⟨(Record.ofWord w).opcode, 0, (Record.ofWord w).reserved, 0⟩ := by
  have hmask : Record.ofWord opcodeRowMask = ⟨BitVec.allOnes 8, 0, BitVec.allOnes 48, 0⟩ := by decide
  simp only [Record.ofWord_and, hmask, BitVec.and_allOnes, BitVec.and_zero, BitVec.ofNat_eq_ofNat]

/-- A word matches the row of an operation exactly where it is a record word of the operation. -/
theorem matches_opcodeRow_iff {w : RecordWord} {m : Mnemonic} :
    w &&& (opcodeRow m).mask = (opcodeRow m).pattern ↔ ∃ r a, w = (Record.make opcodeMap m r a).toWord := by
  constructor
  · intro h
    obtain ⟨hop, -, hres, -⟩ := Record.mk.inj ((Record.ofWord_and_mask w).symm.trans (Record.ofWord_eq_iff.mpr h))
    refine ⟨(Record.ofWord w).reg, (Record.ofWord w).argument, Record.ofWord_eq_iff.mp ?_⟩
    rw [Record.make, ← hop, ← hres]
  · rintro ⟨r, a, rfl⟩
    apply Record.ofWord_eq_iff.mp
    rw [opcodeRow, Record.ofWord_and_mask, Record.ofWord_toWord]
    rfl

/-- No word matches the rows of two operations. -/
theorem matches_opcodeRow_unique {w : RecordWord} {m m' : Mnemonic}
    (h : w &&& (opcodeRow m).mask = (opcodeRow m).pattern)
    (h' : w &&& (opcodeRow m').mask = (opcodeRow m').pattern) : m = m' :=
  opcodeMap_injective (congrArg Record.opcode ((Record.ofWord_eq_iff.mpr h).symm.trans (Record.ofWord_eq_iff.mpr h')))

/-- A word matches the row of an operation exactly where it decodes to the operation. -/
theorem matches_opcodeRow_iff_decode {w : RecordWord} {m : Mnemonic} :
    w &&& (opcodeRow m).mask = (opcodeRow m).pattern ↔ ∃ r a, decode w = .ok (m.instr r a) := by
  rw [matches_opcodeRow_iff]
  constructor
  · rintro ⟨r, a, rfl⟩
    exact ⟨r, a, decode_make_toWord m r a⟩
  · rintro ⟨r, a, h⟩
    obtain ⟨r', a', hw, -⟩ := decode_eq_ok_iff.mp h
    exact ⟨r', a', Mnemonic.mnemonic_instr m r a ▸ hw⟩

/-- Settles O7: the rows are those of the operations, and a row's match is a record word of its operation. -/
theorem decoderAgreesWithTheOpcodeTable : Obligations.DecoderAgreesWithTheOpcodeTable := by
  intro w
  simp only [mem_opcodeTable]
  refine ⟨?rowMatch, ?rowUnique, ?rowExists⟩
  case rowMatch =>
    rintro _ ⟨m, rfl⟩
    exact matches_opcodeRow_iff_decode
  case rowUnique =>
    rintro _ ⟨m, rfl⟩ _ ⟨m', rfl⟩ h h'
    rw [matches_opcodeRow_unique h h']
  case rowExists =>
    intro i hi
    obtain ⟨r, a, hw, -⟩ := decode_eq_ok_iff.mp hi
    exact ⟨opcodeRow i.mnemonic, ⟨_, rfl⟩, rfl, matches_opcodeRow_iff.mpr ⟨r, a, hw⟩⟩

end Sys2Proof

namespace Sys2Proof.Machine

/-! ### The record at `pc` (R73) -/

theorem leNat_recordBytes (w : RecordWord) : leNat (recordBytes w) = w.toNat :=
  (leNat_leBytes 16 _).trans (Nat.mod_eq_of_lt w.isLt)

/-- The value of a list of bytes is the sum of the bytes at their places. -/
theorem leNat_map_range (n : Nat) (f : Nat → Byte) :
    leNat ((List.range n).map f) = ((List.range n).map fun j => (f j).toNat * 2 ^ (8 * j)).sum := by
  induction n generalizing f with
  | zero => rfl
  | succ n ih =>
    have place : ∀ j, (f (j + 1)).toNat * 2 ^ (8 * (j + 1)) = 256 * ((f (j + 1)).toNat * 2 ^ (8 * j)) := fun j => by
      ring
    simp [List.range_succ_eq_map, leNat, Function.comp_def, ih, place, List.sum_map_mul_left]

theorem State.fetchRecord_toNat (s : State) : s.fetchRecord.toNat =
    ((List.range 16).map fun j => (Memory.read s.mem (16 * s.pc.toNat + j)).toNat * 2 ^ (8 * j)).sum :=
  calc s.fetchRecord.toNat = leNat (recordBytes s.fetchRecord) := (leNat_recordBytes _).symm
    _ = leNat (Memory.readBytes s.mem (16 * s.pc.toNat) 16) := congrArg leNat (Memory.recordBytes_fetch s.mem s.pc)
    _ = leNat ((List.range 16).map fun j => Memory.read s.mem (16 * s.pc.toNat + j)) := by
      rw [Memory.readBytes_eq_map, List.range'_eq_map_range, List.map_map]
      rfl
    _ = _ := leNat_map_range 16 _

/-- The instruction ports in a step that fetches (10_state.md R37). -/
theorem imem_ports_of_canExecute {s : State} (h : CanExecute s) :
    imemIndex s = some s.pc ∧ imemRdata s = some s.fetchRecord := by
  simp [imemIndex, imemRdata, fetchesRecord_iff.mpr h]

/-- Settles O2: the bytes of the fetched record, the fields of a word, and the ports. -/
theorem fetchReadsRecordLittleEndian : Obligations.FetchReadsRecordLittleEndian :=
  ⟨State.fetchRecord_toNat,
   fun w => ⟨Record.ofWord_opcode_toNat w, Record.ofWord_reg_toNat w, Record.ofWord_reserved_toNat w,
     Record.ofWord_argument_toNat w⟩,
   fun _ => imem_ports_of_canExecute⟩

/-! ### A fetched record that does not decode (R79, R80) -/

/-- A core that can execute runs the record at `pc` (40_execution_cycle.md R102). -/
theorem step_of_canExecute {s : State} (h : CanExecute s) : step s = runRecord s := by
  obtain ⟨hr, hf, hpc⟩ := h
  rw [step_running hr hf]
  exact if_pos hpc

/-- Fault entry changes the run flag and the code alone (60_exceptions.md R201). -/
theorem faultEntered_raise (s : State) (c : Cause) : FaultEntered c.code s (s.raise c) :=
  ⟨rfl, rfl, rfl, fun _ _ => rfl, rfl, .of_eq rfl rfl⟩

/-- A fetched record that does not decode is the fault entry of its error (40_execution_cycle.md R104). -/
theorem step_faults_of_decode_error {s : State} (h : CanExecute s) {e : DecodeError}
    (he : decode s.fetchRecord = .error e) : ∃ t, step s = .next t ∧ FaultEntered (causeOf e).code s t := by
  refine ⟨s.raise (causeOf e), ?_, faultEntered_raise s _⟩
  simp only [step_of_canExecute h, runRecord, he]

/-- Settles O27: the decoder's first error, and its fault entry. -/
theorem illegalOpcodeFaultsWhenFetched : Obligations.IllegalOpcodeFaultsWhenFetched :=
  ⟨fun _ => decode_illegalOpcode, fun _ h hop => step_faults_of_decode_error h (decode_illegalOpcode hop)⟩

/-- A word whose reserved bytes are not all zero is an error, the illegal opcode first (60_exceptions.md R202). -/
theorem decode_of_reserved {w : RecordWord} (hres : wordReserved w ≠ 0) :
    decode w = .error (if 9 ≤ wordOpcode w then .illegalOpcode else .reservedNonZero) := by
  split
  case isTrue hop => exact decode_illegalOpcode hop
  case isFalse hop => exact decode_reservedNonZero (Nat.not_le.mp hop) hres

/-- Settles O28: which error a non-zero reserved byte gives, and its fault entry. -/
theorem reservedBytesFaultWhenFetched : Obligations.ReservedBytesFaultWhenFetched := by
  refine ⟨fun w hres => ⟨_, decode_of_reserved hres⟩, fun s h hres => ?_⟩
  have hfault := step_faults_of_decode_error h (decode_of_reserved hres)
  rwa [apply_ite causeOf, apply_ite Cause.code] at hfault

end Sys2Proof.Machine

/-! SUPPORT. The statements about the execution cycle (40_execution_cycle.md): what a step is in each state, how an
instruction ends its step, what a step reads, and how a run goes on and ends. -/

namespace Sys2Proof.Machine

/-! ### The step in each state (R100 to R105, R109) -/

/-- Settles O20: a core that can execute dispatches the decoded instruction. -/
theorem stepRunsTheDecodedInstruction : Obligations.StepRunsTheDecodedInstruction := fun s i h hi => by
  simp only [step_of_canExecute h, runRecord, hi]

theorem step_of_executes {s : State} {i : Instr} (h : Executes s i) : step s = exec i s :=
  stepRunsTheDecodedInstruction s i h.1 h.2

theorem step_of_decode_error {s : State} (h : CanExecute s) {e : DecodeError} (he : decode s.fetchRecord = .error e) :
    step s = .next (s.raise (causeOf e)) := by
  simp only [step_of_canExecute h, runRecord, he]

/-- The end check (R109). -/
theorem step_of_end {s : State} (hr : s.running = true) (hf : s.fault = 0) (hpc : ¬ s.pc < s.progLen) :
    step s = .next s.halt := by
  rw [step_running hr hf]
  exact if_neg hpc

theorem step_of_halted {s : State} (h : s.runState = some .halted) : step s = .fault .halted := by
  simp only [step, runLoopStep, h]

theorem step_of_faulted {s : State} (h : s.runState = some .faulted) : step s = .fault .faulted := by
  simp only [step, runLoopStep, h]

theorem step_of_unreachable {s : State} (h : s.runState = none) : step s = .refused .unreachableRunState := by
  simp only [step, runLoopStep, h]

/-- A step needs a `Running` core (R100). -/
theorem runState_of_step {s t : State} (h : step s = .next t) : s.runState = some .running :=
  have ⟨hr, hf, _⟩ := step_cases h
  runState_running_iff.mpr ⟨hr, hf⟩

/-- A `Running` core has a next state. -/
theorem exists_step_of_running {s : State} (h : s.runState = some .running) : ∃ t, step s = .next t := by
  obtain ⟨hr, hf⟩ := runState_running_iff.mp h
  by_cases hpc : s.pc < s.progLen
  · have hs : CanExecute s := ⟨hr, hf, hpc⟩
    cases hd : decode s.fetchRecord with
    | error e => exact ⟨_, step_of_decode_error hs hd⟩
    | ok i =>
      obtain ⟨t, ht, -⟩ := exec_effect i s
      exact ⟨t, (step_of_executes ⟨hs, hd⟩).trans ht⟩
  · exact ⟨_, step_of_end hr hf hpc⟩

/-- Settles O23: each pair of `running` and `fault` has its run state, and a step needs `Running`. -/
theorem onlyARunningCoreSteps : Obligations.OnlyARunningCoreSteps :=
  ⟨fun _ hr hf => step_of_halted (runState_halted_iff.mpr ⟨hr, hf⟩),
   fun _ hr hf => step_of_faulted (runState_faulted_iff.mpr ⟨hr, hf⟩),
   fun _ hr hf => step_of_unreachable (runState_none_iff.mpr ⟨hr, hf⟩),
   fun _ _ => runState_of_step⟩

/-! ### The end of the program (R109) -/

/-- After a step a core that goes on is inside the program. -/
theorem pc_lt_of_step_running {s t : State} (h : step s = .next t) (hr : t.running = true) : t.pc < t.progLen := by
  have inside : ∀ {u : State} {j : Bool}, (u.complete j).running = true →
      (u.complete j).pc < (u.complete j).progLen := by
    intro u j hu
    rw [State.complete_running, Bool.and_eq_true, decide_eq_true_eq] at hu
    rw [State.complete_progLen]
    exact hu.2
  cases step_stepEnd h with
  | faulted | halted => cases hr
  | completed | jumped => exact inside hr

/-- No instruction executes in a step that begins at the end. -/
theorem executedCount_one_of_end {s : State} (h : ¬ s.pc < s.progLen) : executedCount 1 s = 0 := by
  have hno : fetchesRecord s = false := by simp [fetchesRecord, h]
  simp only [executedCount, hno]
  cases step s <;> rfl

/-- Settles O24: the end check gives `State.halt`, which writes the run flag alone. -/
theorem endCheckHaltsWithoutExecuting : Obligations.EndCheckHaltsWithoutExecuting := by
  refine ⟨fun s hr hf hpc => ?atEnd, fun _ _ => pc_lt_of_step_running, fun m => ?emptyProgram⟩
  case atEnd =>
    have hge : ¬ s.pc < s.progLen := Nat.not_lt.mpr hpc
    exact ⟨_, step_of_end hr hf hge, rfl, hf, rfl, fun _ _ => rfl, rfl, .of_eq rfl rfl, executedCount_one_of_end hge⟩
  case emptyProgram =>
    have hge : ¬ (State.resetWith m 0).pc < (State.resetWith m 0).progLen := Nat.lt_irrefl 0
    exact ⟨_, step_of_end rfl rfl hge, rfl, rfl, State.readReg_resetWith m 0, rfl, executedCount_one_of_end hge⟩

/-! ### How an instruction ends its step (R107, R108) -/

/-- The fault an instruction raises at dispatch, where an operand is out of range (41_register_ops.md R133,
43_jumps.md R170). -/
def operandFault (s : State) : Instr → Option Cause
  | .cpy _ a => if a.toNat < 256 then none else some .sourceRegisterOutOfRange
  | .jnz _ k | .jwz _ k => if k.toNat < s.progLen.toNat then none else some .jumpTargetOutOfRange
  | _ => none

/-- The state after an instruction: a fault entry on an operand, QIT's halt, a taken jump, or the advance of an
instruction that wrote at most the registers and the output. `StepEnd` forgets which instruction it was. -/
inductive InstrEnd (i : Instr) (s : State) : State → Prop where
  | faulted (c : Cause) (hc : operandFault s i = some c) : InstrEnd i s (s.raise c)
  | quit (hi : i = .qit) : InstrEnd i s s.halt
  | jumped (k : Word) (hi : i ≠ .qit) (ht : takenTarget s i = some k) (hk : k < s.progLen) : InstrEnd i s (s.setPc k)
  | completed (u : State) (hi : i ≠ .qit) (ht : takenTarget s i = none) (hu : u = { s with x := u.x, out := u.out }) :
      InstrEnd i s (u.complete false)

/-- A jump inside the program passes the boundary check and does not advance (R107). -/
theorem State.complete_jumped {s : State} (h : s.pc < s.progLen) : s.complete true = s := by
  rw [State.complete, State.advance_jumped]
  exact if_pos h

/-- An instruction ends its step in one of these ways. -/
theorem exec_instrEnd {i : Instr} {s t : State} (h : exec i s = .next t) : InstrEnd i s t := by
  have e := effect_of_exec h
  cases i with
  | nop | inc | dec | dbg | ldc => exact e ▸ .completed _ nofun rfl rfl
  | qit => exact e ▸ .quit rfl
  | cpy r a =>
    obtain ⟨-, rfl⟩ | ⟨ha, rfl⟩ := e
    · exact .completed _ nofun rfl rfl
    · exact .faulted _ (if_neg (Nat.not_lt.mpr ha))
  | jnz r k | jwz r k =>
    obtain ⟨hk, hz, rfl⟩ | ⟨-, hz, rfl⟩ | ⟨hk, rfl⟩ := e
    · rw [State.complete_jumped hk]
      exact .jumped k nofun (by simpa [takenTarget] using hz) hk
    · exact .completed s nofun (by simpa [takenTarget] using hz) rfl
    · exact .faulted _ (if_neg (Nat.not_lt.mpr hk))

/-- A step that executes an instruction ends as the instruction does. -/
theorem exists_step_instrEnd {s : State} {i : Instr} (h : Executes s i) : ∃ t, step s = .next t ∧ InstrEnd i s t := by
  obtain ⟨t, ht, -⟩ := exec_effect i s
  exact ⟨t, (step_of_executes h).trans ht, exec_instrEnd ht⟩

/-- Advance and boundary check of an instruction that wrote at most the registers and the output. -/
theorem advanced_complete {s u : State} (h : CanExecute s) (hu : u = { s with x := u.x, out := u.out }) :
    Advanced s (u.complete false) := by
  obtain ⟨hr, -, hpc⟩ := h
  have hur : u.running = true := by rw [hu]; exact hr
  have hpc' : (u.complete false).pc = s.pc + 1 := by rw [State.complete_pc, hur, hu]; rfl
  have hN : u.progLen = s.progLen := by rw [hu]
  refine ⟨hpc' ▸ pc_add_one_toNat hpc, by rw [State.complete_fault, hu], ?_⟩
  rw [State.complete_running, hur, hN, Bool.true_and, decide_eq_true_eq, BitVec.lt_def]

theorem Cause.code_ne_zero (c : Cause) : c.code ≠ 0 := by
  cases c <;> decide

/-- Settles O21: the clauses, for each way an instruction ends its step. -/
theorem pcUpdateAndBoundaryCheck : Obligations.PcUpdateAndBoundaryCheck := by
  intro s t i hx hstep
  have hend : InstrEnd i s t := exec_instrEnd ((step_of_executes hx).symm.trans hstep)
  obtain ⟨hr, hf, hpc⟩ := hx.1
  cases hend with
  | faulted c hc =>
    have hc0 : (s.raise c).fault ≠ 0 := c.code_ne_zero
    exact ⟨fun _ => rfl, fun h => absurd h hc0, fun h => absurd h hc0, fun h => absurd h hc0,
      ⟨nofun, fun h => absurd h.1 hc0⟩, fun _ h => absurd h hc0⟩
  | quit hi => simp [hi, hf, takenTarget]
  | jumped k hi ht hk => simp [hi, ht, hk, hf, hr]
  | completed u hi ht hu =>
    obtain ⟨hpc', hf', hrun⟩ := advanced_complete hx.1 hu
    rw [hf] at hf'
    have hend : ¬ (u.complete false).pc.toNat < s.progLen.toNat → (u.complete false).pc = s.progLen := by bv_omega
    refine ⟨fun h => absurd hf' h, fun _ h => absurd h hi, fun _ k hk => (nomatch ht.symm.trans hk),
      fun _ _ _ => hpc', ?goesOn, fun hstop _ _ => hend fun hlt => ?stops⟩
    case goesOn => exact hrun.trans ⟨fun hlt => ⟨hf', hi, hlt⟩, fun h => h.2.2⟩
    case stops => cases hstop.symm.trans (hrun.mpr hlt)

/-! ### The execution state machine (R101) -/

/-- A core after a fault entry. -/
theorem runState_raise (s : State) (c : Cause) : (s.raise c).runState = some .faulted :=
  runState_faulted_iff.mpr ⟨rfl, c.code_ne_zero⟩

/-- A core without a fault after a halt. -/
theorem runState_halt {s : State} (hf : s.fault = 0) : s.halt.runState = some .halted :=
  runState_halted_iff.mpr ⟨rfl, hf⟩

/-- A jump with its target outside the program faults, taken or not (43_jumps.md R170). -/
theorem step_of_jump_outOfRange {s : State} {r : RegIdx} {k : Word}
    (h : Executes s (.jnz r k) ∨ Executes s (.jwz r k)) (hk : s.progLen ≤ k) :
    step s = .next (s.raise .jumpTargetOutOfRange) := by
  obtain h | h := h
  · rw [step_of_executes h, exec_jnz, jumpWhen_outOfRange hk]
  · rw [step_of_executes h, exec_jwz, jumpWhen_outOfRange hk]

/-- An instruction with its operands in range raises no fault at dispatch. -/
theorem operandFault_of_inRange {s : State} {i : Instr} (hcpy : ∀ r a, i = .cpy r a → a.toNat < 256)
    (hjump : ∀ r k, i = .jnz r k ∨ i = .jwz r k → k < s.progLen) : operandFault s i = none := by
  cases i with
  | cpy r a => exact if_pos (hcpy r a rfl)
  | jnz r k => exact if_pos (hjump r k (.inl rfl))
  | jwz r k => exact if_pos (hjump r k (.inr rfl))
  | _ => rfl

/-- An instruction that neither faults nor quits: an advance to the end halts, and everything else goes on. -/
theorem runState_of_instrEnd {s t : State} {i : Instr} (hs : CanExecute s) (e : InstrEnd i s t) (hq : i ≠ .qit)
    (hop : operandFault s i = none) :
    (takenTarget s i = none → s.pc.toNat + 1 = s.progLen.toNat → t.runState = some .halted) ∧
    (takenTarget s i ≠ none ∨ s.pc.toNat + 1 < s.progLen.toNat → t.runState = some .running) := by
  have ⟨hr, hf, _⟩ := hs
  cases e with
  | faulted c hc => cases hop.symm.trans hc
  | quit hi => exact absurd hi hq
  | jumped k hi ht hk =>
    exact ⟨fun hn => (nomatch hn.symm.trans ht), fun _ => runState_running_iff.mpr ⟨hr, hf⟩⟩
  | completed u hi ht hu =>
    obtain ⟨hpc', hf', hrun⟩ := advanced_complete hs hu
    rw [hpc'] at hrun
    refine ⟨fun _ hN => runState_halted_iff.mpr ⟨?_, hf'.trans hf⟩,
      fun hgo => runState_running_iff.mpr ⟨?_, hf'.trans hf⟩⟩
    · exact Bool.eq_false_iff.mpr fun hr' => absurd (hrun.mp hr') (by omega)
    · exact hrun.mpr (hgo.resolve_left (absurd ht))

/-- Settles O22: the rows of the table, each from the step of its case. -/
theorem runStateTransitions : Obligations.RunStateTransitions := by
  refine ⟨fun s hs hrun hpc => ?onlyEmpty, fun s hrun hpc => ?atEnd,
    fun s e h he => ⟨_, step_of_decode_error h he, runState_raise s _⟩,
    fun s r a h ha => ⟨_, (step_of_executes h).trans (exec_cpy_outOfRange r ha s), runState_raise s _⟩,
    fun s r k h hk => ⟨_, step_of_jump_outOfRange h hk, runState_raise s _⟩,
    fun s h => ?quit, fun s i h hq hcpy hjump => ?goesOn, fun s hstop t ht => ?stopped⟩
  case onlyEmpty =>
    obtain hlt | ⟨hN, -⟩ := hs.inside (runState_running_iff.mp hrun).1
    · exact absurd hlt (Nat.not_lt.mpr hpc)
    · exact hN
  case atEnd =>
    obtain ⟨hr, hf⟩ := runState_running_iff.mp hrun
    have hge : ¬ s.pc < s.progLen := Nat.not_lt.mpr hpc
    exact ⟨_, step_of_end hr hf hge, runState_halt hf, executedCount_one_of_end hge⟩
  case quit =>
    have hstep : step s = .next (s.halt.complete false) := step_of_executes h
    rw [complete_halt] at hstep
    exact ⟨_, hstep, runState_halt h.1.2.1⟩
  case goesOn =>
    obtain ⟨t, ht, hend⟩ := exists_step_instrEnd h
    exact ⟨t, ht, runState_of_instrEnd h.1 hend hq (operandFault_of_inRange hcpy hjump)⟩
  case stopped =>
    have hrun := runState_of_step ht
    obtain h | h := hstop <;> cases h.symm.trans hrun

/-! ### A faulting step (R111) -/

/-- A step that reports a fault is a fault entry. -/
theorem step_eq_raise_of_fault {s t : State} (h : step s = .next t) (hf : t.fault ≠ 0) : ∃ c, t = s.raise c := by
  have hf0 : s.fault = 0 := (step_cases h).2.1
  cases step_stepEnd h with
  | faulted c => exact ⟨c, rfl⟩
  | halted => exact absurd hf0 hf
  | completed u hpc hu =>
    rw [State.complete_fault, hu] at hf
    exact absurd hf0 hf
  | jumped k hk =>
    rw [State.complete_fault] at hf
    exact absurd hf0 hf

/-- Settles O30: `State.raise` writes the two fields alone. -/
theorem faultingStepChangesOnlyRunFlagAndFault : Obligations.FaultingStepChangesOnlyRunFlagAndFault := by
  intro s t h hf
  obtain ⟨c, rfl⟩ := step_eq_raise_of_fault h hf
  rfl

/-! ### What a step reads (R112) -/

/-- `s` with another program buffer and another output. -/
def State.rebind (s : State) (m : Memory) (o : List Word) : State := { s with mem := m, out := o }

section Rebind

variable (s : State) (m : Memory) (o : List Word)

@[simp] theorem State.readReg_rebind (r : RegIdx) : (s.rebind m o).readReg r = s.readReg r := rfl
@[simp] theorem State.writeReg_rebind (r : RegIdx) (v : Word) :
    (s.rebind m o).writeReg r v = (s.writeReg r v).rebind m o := rfl
@[simp] theorem State.emit_rebind (v : Word) : (s.rebind m o).emit v = (s.emit v).rebind m (o ++ [v]) := rfl
@[simp] theorem State.raise_rebind (c : Cause) : (s.rebind m o).raise c = (s.raise c).rebind m o := rfl
@[simp] theorem State.halt_rebind : (s.rebind m o).halt = s.halt.rebind m o := rfl
@[simp] theorem State.setPc_rebind (k : Word) : (s.rebind m o).setPc k = (s.setPc k).rebind m o := rfl

/-- Advance and boundary check read neither the buffer nor the output. -/
@[simp] theorem State.complete_rebind (j : Bool) : (s.rebind m o).complete j = (s.complete j).rebind m o := by
  obtain ⟨hpc, hr⟩ := State.complete_congr (s := s) (t := s.rebind m o) rfl rfl rfl j
  rw [State.complete_eq (s.rebind m o), State.complete_eq s, hpc, hr]
  rfl

end Rebind

/-- A conditional jump does the same to another buffer and another output. -/
theorem jumpWhen_rebind {p : Word → Bool} {r : RegIdx} {k : Word} {s t : State} (h : jumpWhen p r k s = .next t)
    (m : Memory) (o : List Word) : jumpWhen p r k (s.rebind m o) = .next (t.rebind m o) := by
  by_cases hk : k.toNat < s.progLen.toNat
  · cases hp : p (s.readReg r) with
    | true =>
      cases (jumpWhen_taken hk hp).symm.trans h
      simp [jumpWhen_taken (s := s.rebind m o) hk hp]
    | false =>
      cases (jumpWhen_notTaken hk hp).symm.trans h
      simp [jumpWhen_notTaken (s := s.rebind m o) hk hp]
  · have hge : s.progLen.toNat ≤ k.toNat := Nat.not_lt.mp hk
    cases (jumpWhen_outOfRange hge).symm.trans h
    simp [jumpWhen_outOfRange (s := s.rebind m o) hge]

/-- An instruction does the same to another buffer and another output, and appends the same values to the output. -/
theorem exec_rebind {i : Instr} {s t : State} (h : exec i s = .next t) (m : Memory) (o : List Word) :
    exec i (s.rebind m o) = .next (t.rebind m (o ++ (emitted s i).toList)) := by
  cases i with
  | nop | inc | dec | dbg | qit | ldc =>
    cases h
    simp [exec, execNop, execInc, execDec, execDbg, execQit, execLdc, emitted]
  | cpy r a =>
    by_cases ha : a.toNat < 256
    · cases (exec_cpy_inRange r ha s).symm.trans h
      simp [exec_cpy_inRange r ha, emitted]
    · have hge : 256 ≤ a.toNat := Nat.not_lt.mp ha
      cases (exec_cpy_outOfRange r hge s).symm.trans h
      simp [exec_cpy_outOfRange r hge, emitted]
  | jnz r k =>
    rw [exec_jnz] at h ⊢
    simpa [emitted] using jumpWhen_rebind h m o
  | jwz r k =>
    rw [exec_jwz] at h ⊢
    simpa [emitted] using jumpWhen_rebind h m o

/-- A step reads of the buffer the fetched record alone, and nothing of the output. -/
theorem step_rebind {s t : State} (h : step s = .next t) {m : Memory} (hm : Memory.fetch m s.pc = s.fetchRecord)
    (o : List Word) : ∃ e, t.out = s.out ++ e ∧ step (s.rebind m o) = .next (t.rebind m (o ++ e)) := by
  have hdecode : decode (s.rebind m o).fetchRecord = decode s.fetchRecord := congrArg decode hm
  obtain ⟨hr, hf, ⟨hge, rfl⟩ | ⟨hpc, e, he, rfl⟩ | ⟨hpc, i, hi, hx⟩⟩ := step_cases h
  · refine ⟨[], (List.append_nil _).symm, ?_⟩
    rw [step_of_end (s := s.rebind m o) hr hf hge, State.halt_rebind, List.append_nil]
  · refine ⟨[], (List.append_nil _).symm, ?_⟩
    have hs : CanExecute (s.rebind m o) := ⟨hr, hf, hpc⟩
    rw [step_of_decode_error hs (hdecode.trans he), State.raise_rebind, List.append_nil]
  · have hs : Executes (s.rebind m o) i := ⟨⟨hr, hf, hpc⟩, hdecode.trans hi⟩
    exact ⟨_, exec_out hx, (step_of_executes hs).trans (exec_rebind hx m o)⟩

/-- Settles O26: the step of the changed state is the old one, changed in the same way. -/
theorem stepReadsNothingButTheFetchedRecord : Obligations.StepReadsNothingButTheFetchedRecord := by
  intro s t m o hm h
  obtain ⟨e, hout, hstep⟩ := step_rebind h hm o
  exact ⟨_, hstep, rfl, rfl, rfl, rfl, rfl, rfl, e, hout, rfl⟩

/-! ### Runs that stop (R100) -/

/-- A stopped core has no run but the empty one. -/
theorem runFor_of_stopped {n : Nat} {s t : State} (hs : s.running = false) (h : runFor n s = some t) :
    n = 0 ∧ t = s := by
  cases n with
  | zero => exact ⟨rfl, (Option.some.inj h).symm⟩
  | succ n =>
    obtain ⟨u, hu, -⟩ := runFor_succ h
    cases hs.symm.trans (step_cases hu).1

/-! ### Executed instructions (R114) -/

/-- A step that fetches executes one instruction more than the run after it. -/
theorem executedCount_succ_of_step {s u : State} (h : step s = .next u) (hpc : s.pc < s.progLen) (n : Nat) :
    executedCount (n + 1) s = 1 + executedCount n u := by
  obtain ⟨hr, hf, -⟩ := step_cases h
  have hs : CanExecute s := ⟨hr, hf, hpc⟩
  simp only [executedCount, fetchesRecord_iff.mpr hs, h, if_true]

/-- Every step of a run that begins inside the program executes an instruction. -/
theorem executedCount_of_inside {n : Nat} {s t : State} (h : runFor n s = some t) (hpc : s.pc < s.progLen) :
    executedCount n s = n := by
  induction n generalizing s with
  | zero => rfl
  | succ n ih =>
    obtain ⟨u, hu, ht⟩ := runFor_succ h
    have hrest : executedCount n u = n := by
      by_cases hr : u.running = true
      · exact ih ht (pc_lt_of_step_running hu hr)
      · obtain ⟨rfl, -⟩ := runFor_of_stopped (Bool.eq_false_iff.mpr hr) ht
        rfl
    rw [executedCount_succ_of_step hu hpc, hrest, Nat.add_comm]

/-- A run that begins at the end has at most the step of the end check. -/
theorem runFor_le_one_of_end {n : Nat} {s t : State} (h : runFor n s = some t) (hpc : ¬ s.pc < s.progLen) :
    n ≤ 1 := by
  cases n with
  | zero => exact Nat.zero_le 1
  | succ n =>
    obtain ⟨u, hu, ht⟩ := runFor_succ h
    obtain ⟨hr, hf, -⟩ := step_cases hu
    cases (step_of_end hr hf hpc).symm.trans hu
    obtain ⟨rfl, -⟩ := runFor_of_stopped (State.halt_running s) ht
    exact Nat.le_refl 1

/-- Settles O36: the two places a run can begin. -/
theorem executedCountIsTheNumberOfFetches : Obligations.ExecutedCountIsTheNumberOfFetches := by
  refine fun n s t h => ⟨executedCount_of_inside h, fun hpc => ?_⟩
  have hge : ¬ s.pc < s.progLen := Nat.not_lt.mpr hpc
  have hn : n ≤ 1 := runFor_le_one_of_end h hge
  refine ⟨hn, ?_⟩
  obtain rfl | rfl := Nat.le_one_iff_eq_zero_or_eq_one.mp hn
  · rfl
  · exact executedCount_one_of_end hge

/-! ### A run that never stops (R110) -/

/-- A step that changes nothing is a run of every length. -/
theorem runFor_of_step_self {s : State} (h : step s = .next s) (n : Nat) : runFor n s = some s := by
  induction n with
  | zero => rfl
  | succ n ih => rw [runFor_succ_of_step h, ih]

/-- A taken jump to its own index changes nothing. -/
theorem jumpWhen_self {p : Word → Bool} {r : RegIdx} {s : State} (hpc : s.pc < s.progLen)
    (hp : p (s.readReg r) = true) : jumpWhen p r s.pc s = .next s := by
  rw [jumpWhen_taken hpc hp]
  exact congrArg Host.Outcome.next (State.complete_jumped hpc)

/-- Settles O34: the step of a taken jump to its own index changes nothing. -/
theorem aJumpToItselfRunsForever : Obligations.AJumpToItselfRunsForever := by
  intro s r h
  have hself : step s = .next s := by
    obtain ⟨hx, hz⟩ | ⟨hx, hz⟩ := h
    · rw [step_of_executes hx, exec_jnz, jumpWhen_self hx.1.2.2 (by simpa using hz)]
    · rw [step_of_executes hx, exec_jwz, jumpWhen_self hx.1.2.2 (by simpa using hz)]
  exact ⟨fun n => ⟨s, runFor_of_step_self hself n, runState_of_step hself⟩, runFor_of_step_self hself⟩

/-! ### The end of a run (R113) -/

/-- A run ends in the states without a step that it reaches. -/
theorem ends_iff {s t : State} : EndsNormally s t ∨ EndsInError s t ↔ Reaches s t ∧ t.running = false := by
  rw [EndsNormally, EndsInError, ← and_or_left, runState_halted_iff, runState_faulted_iff, ← and_or_left]
  simp [em]

/-- A step leads to a state of the table (10_state.md R33). -/
theorem runState_ne_none_of_step {s t : State} (h : step s = .next t) : t.runState ≠ none := fun hn =>
  have ⟨hr, hf⟩ := runState_none_iff.mp hn
  hf (step_fault_of_running h hr)

theorem runState_ne_none_of_reaches {s t : State} (hs : s.runState ≠ none) (h : Reaches s t) : t.runState ≠ none :=
  h.induct (P := fun u => u.runState ≠ none) hs fun _ _ _ => runState_ne_none_of_step

/-- The states of a run in which the core has stopped are one state. -/
theorem stopped_unique {s t u : State} (ht : Reaches s t) (htr : t.running = false) (hu : Reaches s u)
    (hur : u.running = false) : t = u := by
  obtain ⟨n, hn⟩ := ht
  obtain ⟨m, hm⟩ := hu
  obtain ⟨d, rfl⟩ | ⟨d, rfl⟩ := (Nat.le_total n m).imp Nat.exists_eq_add_of_le Nat.exists_eq_add_of_le
  · exact (runFor_of_stopped htr ((runFor_add d hn).symm.trans hm)).2.symm
  · exact (runFor_of_stopped hur ((runFor_add d hm).symm.trans hn)).2

/-- A state of the table in which the core runs. -/
theorem runState_running_of_running {s : State} (hs : s.runState ≠ none) (hr : s.running = true) :
    s.runState = some .running :=
  runState_running_iff.mpr ⟨hr, by_contra fun hf => hs (runState_none_iff.mpr ⟨hr, hf⟩)⟩

/-- A run that reaches no state in which the core has stopped goes on for ever. -/
theorem runsForever_of_never_stopped {s : State} (hs : s.runState ≠ none) (hno : ∀ t, Reaches s t → t.running = true) :
    RunsForever s := by
  have hrun : ∀ t, Reaches s t → t.runState = some .running := fun t ht =>
    runState_running_of_running (runState_ne_none_of_reaches hs ht) (hno t ht)
  intro n
  induction n with
  | zero => exact ⟨s, rfl, hrun s ⟨0, rfl⟩⟩
  | succ n ih =>
    obtain ⟨t, ht, htr⟩ := ih
    obtain ⟨u, hu⟩ := exists_step_of_running htr
    have hsu : runFor (n + 1) s = some u := by
      rw [runFor_add 1 ht, runFor_succ_of_step hu]
      rfl
    exact ⟨u, hsu, hrun u ⟨_, hsu⟩⟩

/-- A run that goes on for ever reaches no state in which the core has stopped. -/
theorem running_of_runsForever {s t : State} (h : RunsForever s) (ht : Reaches s t) : t.running = true := by
  obtain ⟨n, hn⟩ := ht
  obtain ⟨u, hu, hrun⟩ := h n
  cases hn.symm.trans hu
  exact (runState_running_iff.mp hrun).1

/-- A run goes on for ever or reaches a state in which the core has stopped. -/
theorem runsForever_or_stopped {s : State} (hs : s.runState ≠ none) :
    RunsForever s ∨ ∃ t, Reaches s t ∧ t.running = false :=
  or_iff_not_imp_right.mpr fun hno => runsForever_of_never_stopped hs fun t ht =>
    Bool.of_not_eq_false fun hr => hno ⟨t, ht, hr⟩

/-- A run is safe exactly where it does not end in error. -/
theorem safeRun_iff {s : State} (hs : s.runState ≠ none) : SafeRun s ↔ ¬ ∃ t, EndsInError s t := by
  constructor
  · rintro hsafe ⟨t, ht, hfaulted⟩
    exact (runState_faulted_iff.mp hfaulted).2 (hsafe t ht)
  · intro hno t ht
    by_contra hf
    have hr : t.running = false := Bool.eq_false_iff.mpr fun hr =>
      runState_ne_none_of_reaches hs ht (runState_none_iff.mpr ⟨hr, hf⟩)
    exact hno ⟨t, ht, runState_faulted_iff.mpr ⟨hr, hf⟩⟩

/-- Settles O35: both kinds of end are the states without a step that the run reaches. -/
theorem aRunHasExactlyOneEnd : Obligations.ARunHasExactlyOneEnd := by
  intro s hs
  refine ⟨?someEnd, ?oneEnd, ?noEnd, safeRun_iff hs⟩
  case someEnd =>
    simp only [ends_iff]
    exact runsForever_or_stopped hs
  case oneEnd =>
    simp only [ends_iff]
    exact fun t u ⟨ht, htr⟩ ⟨hu, hur⟩ => stopped_unique ht htr hu hur
  case noEnd =>
    intro hforever t
    rw [← not_or, ends_iff]
    rintro ⟨ht, htr⟩
    cases htr.symm.trans (running_of_runsForever hforever ht)

/-! ### A word placed for the next fetch (R103, 20_memory.md R52) -/

/-- A record placed in a canonical buffer is the one fetched from its place. -/
theorem Memory.fetch_placeRecord {m : Memory} (h : Memory.wf m = true) (k : Word) (w : RecordWord) :
    Memory.fetch (Memory.placeRecord m k w) k = w := by
  have hbytes := Memory.readBytes_writeBytes h (Config.recordSize * k.toNat) (recordBytes w)
  rw [recordBytes_length] at hbytes
  rw [Memory.fetch, Memory.placeRecord, hbytes, recordWord_recordBytes]

/-- The whole record word is a table word. -/
theorem tableWord_toNat (w : RecordWord) : tableWord 128 w.toNat = w := by
  rw [tableWord, Nat.mod_eq_of_lt w.isLt, BitVec.ofNat_toNat, BitVec.setWidth_eq]

/-- The place of a word is never the last index, at which no program has an instruction. -/
theorem placedIndex_lt_succ (pc : Word) : placedIndex pc < placedIndex pc + 1 := by
  have hne : placedIndex pc ≠ BitVec.allOnes 64 := by
    unfold placedIndex
    split
    · decide
    · assumption
  rw [ne_eq, ← BitVec.toNat_inj, BitVec.toNat_allOnes] at hne
  bv_omega

/-- The program of the placed word reaches its place. -/
theorem canExecute_placeFetchWord (s : State) (w : RecordWord) : CanExecute (placeFetchWord s w) := by
  refine ⟨rfl, rfl, ?_⟩
  simp only [placeFetchWord]
  split
  · assumption
  · exact placedIndex_lt_succ s.pc

@[simp] theorem placeFetchWord_pc (s : State) (w : RecordWord) : (placeFetchWord s w).pc = placedIndex s.pc := rfl
@[simp] theorem placeFetchWord_mem (s : State) (w : RecordWord) :
    (placeFetchWord s w).mem = Memory.placeRecord s.mem (placedIndex s.pc) w := by
  simp only [placeFetchWord]

/-- The placed word is the record at `pc`. -/
theorem fetchRecord_placeFetchWord {s : State} (h : Memory.wf s.mem = true) (w : RecordWord) :
    (placeFetchWord s w).fetchRecord = w := by
  rw [State.fetchRecord, placeFetchWord_pc, placeFetchWord_mem, Memory.fetch_placeRecord h]

/-- Settles O45: the word stands at `pc`, and placing it writes neither registers nor output. -/
theorem placedWordIsTheNextFetched : Obligations.PlacedWordIsTheNextFetched := by
  intro s w hwf
  rw [State.withFetchWord, tableWord_toNat]
  refine ⟨canExecute_placeFetchWord s w, fetchRecord_placeFetchWord hwf w, ?_, fun _ _ => rfl, rfl⟩
  rw [placeFetchWord_mem]
  exact Memory.placeRecord_wf hwf _ w

end Sys2Proof.Machine

/-! SUPPORT. The statements about the register operations (41_register_ops.md): an instruction that writes one register
and advances, and what CPY does with a source that names no register. -/

namespace Sys2Proof.Machine

/-! ### An instruction that writes one register and advances -/

/-- An instruction whose effect is one register write leaves that value in the register, advances, and keeps every
other register, the output and the program. -/
theorem exec_writeReg_frame {i : Instr} {s : State} {r : RegIdx} {v : Word} (h : CanExecute s)
    (he : exec i s = .next ((s.writeReg r v).complete false)) :
    ∃ t, exec i s = .next t ∧ t.readReg r = v ∧ Advanced s t ∧ RegistersKept [r] s t ∧ t.out = s.out ∧
      ProgramStable s t := by
  refine ⟨_, he, by simp, advanced_complete h rfl, fun j hj => ?kept, by simp, .of_eq (by simp) (by simp)⟩
  case kept =>
    rw [State.readReg_complete]
    exact State.readReg_writeReg_other s v (List.ne_of_not_mem_cons hj)

/-! ### INC, DEC and LDC (R130, R131, R132) -/

theorem exec_inc (r : RegIdx) (s : State) :
    exec (.inc r) s = .next ((s.writeReg r (s.readReg r + 1)).complete false) := rfl
theorem exec_dec (r : RegIdx) (s : State) :
    exec (.dec r) s = .next ((s.writeReg r (s.readReg r - 1)).complete false) := rfl
theorem exec_ldc (r : RegIdx) (a : Word) (s : State) :
    exec (.ldc r a) s = .next ((s.writeReg r a).complete false) := rfl

/-- Settles O11: the register write of INC, read as a number. -/
theorem incIncrementsItsRegister : Obligations.IncIncrementsItsRegister := by
  refine ⟨fun _ _ _ => decode_of_isRecord (m := .inc), fun r s h => ?_⟩
  obtain ⟨t, ht, hval, hframe⟩ := exec_writeReg_frame h (exec_inc r s)
  exact ⟨t, ht, hval ▸ BitVec.toNat_add _ 1, hframe⟩

/-- Two writes of one register, the second with the value it had, give back the whole register file. -/
theorem x_of_register_restored {s : State} {r : RegIdx} {v v' : Word} (hv' : v' = s.readReg r) :
    ((((s.writeReg r v).complete false).writeReg r v').complete false).x = s.x := by
  simp [hv', State.readReg]

/-- Settles O12: the register write of DEC, read as a number, and the two restore laws (R131). -/
theorem decDecrementsItsRegister : Obligations.DecDecrementsItsRegister := by
  refine ⟨fun _ _ _ => decode_of_isRecord (m := .dec), fun r s h => ?decrements, fun r s _ =>
    ⟨⟨_, _, exec_inc r s, exec_dec r _, x_of_register_restored ?incDec⟩,
      ⟨_, _, exec_dec r s, exec_inc r _, x_of_register_restored ?decInc⟩⟩⟩
  case decrements =>
    obtain ⟨t, ht, hval, hframe⟩ := exec_writeReg_frame h (exec_dec r s)
    refine ⟨t, ht, ?_, hframe⟩
    rw [hval, BitVec.toNat_sub, Nat.add_comm]
    rfl
  case incDec =>
    rw [State.readReg_complete, State.readReg_writeReg_same, BitVec.add_sub_cancel]
  case decInc =>
    rw [State.readReg_complete, State.readReg_writeReg_same, BitVec.sub_add_cancel]

/-- Settles O13: the register write of LDC. -/
theorem ldcLoadsItsConstant : Obligations.LdcLoadsItsConstant :=
  ⟨fun _ _ _ => decode_of_isRecord (m := .ldc), fun r a s h => exec_writeReg_frame h (exec_ldc r a s)⟩

/-! ### CPY (R133) -/

/-- CPY from the register its argument names. -/
theorem exec_cpy_register (r : RegIdx) {q : RegIdx} {a : Word} (hq : a.toNat = q.toNat) (s : State) :
    exec (.cpy r a) s = .next ((s.writeReg r (s.readReg q)).complete false) := by
  rw [exec_cpy_inRange r (hq ▸ q.isLt), hq, BitVec.ofNat_toNat, BitVec.setWidth_eq]

/-- Settles O14: a source register is copied, and any other index is the fault entry before a write. -/
theorem cpyCopiesOrFaults : Obligations.CpyCopiesOrFaults :=
  ⟨fun _ _ _ => decode_of_isRecord (m := .cpy),
    fun r _ _ s h hq => exec_writeReg_frame h (exec_cpy_register r hq s),
    fun r _ s _ ha => ⟨_, exec_cpy_outOfRange r ha s, faultEntered_raise s _⟩⟩

end Sys2Proof.Machine

/-! SUPPORT. The statements about NOP, DBG and QIT (42_system.md): the frame of an instruction that writes no register,
and the end of the step of each. -/

namespace Sys2Proof.Machine

/-! ### An instruction that writes no register -/

/-- An instruction that writes no register keeps every register and the program, and appends what it emits. -/
theorem exec_frame_of_no_dest {i : Instr} {s t : State} (h : exec i s = .next t) (hd : destOf i = none) :
    RegistersKept [] s t ∧ t.out = s.out ++ (emitted s i).toList ∧ ProgramStable s t := by
  have hdest (j : RegIdx) : destOf i ≠ some j := by simp [hd]
  obtain ⟨hmem, hlen⟩ := exec_program h
  exact ⟨fun j _ => exec_readReg_of_not_dest h (hdest j), exec_out h, .of_eq hmem hlen⟩

/-! ### NOP and DBG (R150, R151) -/

theorem exec_nop (s : State) : exec .nop s = .next (s.complete false) := rfl
theorem exec_dbg (r : RegIdx) (s : State) : exec (.dbg r) s = .next ((s.emit (s.readReg r)).complete false) := rfl

/-- Settles O10: NOP is the advance and the boundary check alone. -/
theorem nopOnlyAdvances : Obligations.NopOnlyAdvances := by
  refine ⟨fun _ _ _ => decode_of_isRecord (m := .nop), fun s h => ?_⟩
  obtain ⟨hregs, hout, hprog⟩ := exec_frame_of_no_dest (exec_nop s) rfl
  exact ⟨_, exec_nop s, advanced_complete h rfl, hregs, hout.trans (List.append_nil _), hprog⟩

/-- Settles O15: DBG appends what it emits, which is the value on the port. -/
theorem dbgEmitsItsRegister : Obligations.DbgEmitsItsRegister := by
  refine ⟨fun _ _ _ => decode_of_isRecord (m := .dbg), fun r s h => ?_, fun _ _ => dbgPort_of_executes⟩
  obtain ⟨hregs, hout, hprog⟩ := exec_frame_of_no_dest (exec_dbg r s) rfl
  exact ⟨_, exec_dbg r s, hout, advanced_complete h rfl, hregs, hprog⟩

/-! ### QIT (R152) -/

/-- The run flag is down before the advance, so nothing but it changes. -/
theorem exec_qit (s : State) : exec .qit s = .next s.halt :=
  congrArg Host.Outcome.next (State.complete_stopped s.halt_running false)

/-- A halted core has no step (R100). -/
theorem step_halt_ne_next {s : State} (hf : s.fault = 0) (u : State) : step s.halt ≠ .next u := by
  rw [step_of_halted (runState_halt hf)]
  exact nofun

/-- Settles O16: QIT is the halt alone, after which the core is `Halted`. -/
theorem qitHaltsAtItsIndex : Obligations.QitHaltsAtItsIndex := by
  refine ⟨fun _ _ _ => decode_of_isRecord (m := .qit), fun s h => ?_⟩
  obtain ⟨-, hf, -⟩ := h
  obtain ⟨hregs, hout, hprog⟩ := exec_frame_of_no_dest (exec_qit s) rfl
  exact ⟨s.halt, exec_qit s, rfl, hf, rfl, hregs, hout.trans (List.append_nil _), hprog, step_halt_ne_next hf⟩

end Sys2Proof.Machine

/-! SUPPORT. The statements about JNZ and JWZ (43_jumps.md), each a use of what a conditional jump does under any
condition on its register. -/

namespace Sys2Proof.Machine

/-! ### A conditional jump under any condition -/

/-- A conditional jump faults exactly on a target outside the program, whatever its condition (R170). -/
theorem jumpWhen_checks_target (p : Word → Bool) (r : RegIdx) (k : Word) {s : State} (hf : s.fault = 0) :
    ∃ t, jumpWhen p r k s = .next t ∧
      (s.progLen.toNat ≤ k.toNat → FaultEntered 4 s t) ∧ (k.toNat < s.progLen.toNat → t.fault = 0) := by
  obtain hk | hk := Nat.lt_or_ge k.toNat s.progLen.toNat
  · have hin {t : State} (ht : t.fault = s.fault) :
        (s.progLen.toNat ≤ k.toNat → FaultEntered 4 s t) ∧ (k.toNat < s.progLen.toNat → t.fault = 0) :=
      ⟨fun h => absurd hk (Nat.not_lt.mpr h), fun _ => ht.trans hf⟩
    cases hp : p (s.readReg r) with
    | true => exact ⟨_, jumpWhen_taken hk hp, hin (State.complete_fault _ true)⟩
    | false => exact ⟨_, jumpWhen_notTaken hk hp, hin (State.complete_fault s false)⟩
  · exact ⟨_, jumpWhen_outOfRange hk, fun _ => faultEntered_raise s .jumpTargetOutOfRange,
      fun h => absurd h (Nat.not_lt.mpr hk)⟩

/-- A conditional jump with its target inside the program goes there when its condition holds, advances when it does
not, and keeps the registers, the output and the program (R171, R172). -/
theorem jumpWhen_inRange (p : Word → Bool) (r : RegIdx) {k : Word} {s : State} (h : CanExecute s)
    (hk : k < s.progLen) : ∃ t, jumpWhen p r k s = .next t ∧
      (p (s.readReg r) = true → t.pc = k ∧ t.running = true ∧ t.fault = 0) ∧
      (p (s.readReg r) = false → Advanced s t) ∧
      RegistersKept [] s t ∧ t.out = s.out ∧ ProgramStable s t := by
  cases hp : p (s.readReg r) with
  | true =>
    obtain ⟨hr, hf, -⟩ := h
    have hjump : jumpWhen p r k s = .next (s.setPc k) := by rw [jumpWhen_taken hk hp, State.complete_jumped hk]
    exact ⟨_, hjump, fun _ => ⟨rfl, hr, hf⟩, nofun, fun _ _ => rfl, rfl, .of_eq rfl rfl⟩
  | false =>
    exact ⟨_, jumpWhen_notTaken hk hp, nofun, fun _ => advanced_complete h rfl,
      fun j _ => s.readReg_complete false j, s.complete_out false,
      .of_eq (s.complete_mem false) (s.complete_progLen false)⟩

/-! ### JNZ and JWZ (R170, R171, R172) -/

/-- Settles O19: the target check of a conditional jump, in the state with the tested register written. -/
theorem jumpTargetIsCheckedBeforeTheCondition : Obligations.JumpTargetIsCheckedBeforeTheCondition := by
  rintro i r k s ⟨-, hf, -⟩ (rfl | rfl) v
  · exact jumpWhen_checks_target (fun x => x != 0) r k (s := s.writeReg r v) hf
  · exact jumpWhen_checks_target (fun x => x == 0) r k (s := s.writeReg r v) hf

/-- Settles O17: the conditional jump on a register that is not zero. -/
theorem jnzJumpsWhenNotZero : Obligations.JnzJumpsWhenNotZero := by
  refine ⟨fun _ _ _ => decode_of_isRecord (m := .jnz), fun r k s h hk => ?inRange, fun r k s _ hk =>
    ⟨_, (exec_jnz r k s).trans (jumpWhen_outOfRange hk), faultEntered_raise s .jumpTargetOutOfRange⟩⟩
  case inRange =>
    obtain ⟨t, ht, htaken, hnot, hframe⟩ := jumpWhen_inRange (fun v => v != 0) r h hk
    exact ⟨t, ht, fun hz => htaken (bne_iff_ne.mpr hz), fun hz => hnot (bne_eq_false_iff_eq.mpr hz), hframe⟩

/-- Settles O18: the conditional jump on a register that is zero. -/
theorem jwzJumpsWhenZero : Obligations.JwzJumpsWhenZero := by
  refine ⟨fun _ _ _ => decode_of_isRecord (m := .jwz), fun r k s h hk => ?inRange, fun r k s _ hk =>
    ⟨_, (exec_jwz r k s).trans (jumpWhen_outOfRange hk), faultEntered_raise s .jumpTargetOutOfRange⟩⟩
  case inRange =>
    obtain ⟨t, ht, htaken, hnot, hframe⟩ := jumpWhen_inRange (fun v => v == 0) r h hk
    exact ⟨t, ht, fun hz => htaken (beq_iff_eq.mpr hz), fun hz => hnot (beq_eq_false_iff_ne.mpr hz), hframe⟩

end Sys2Proof.Machine

/-! SUPPORT. The statements about the faults (60_exceptions.md): the condition of each cause, in the order in which they
are checked, and the end of a run that reached a fault. -/

namespace Sys2Proof.Machine

/-! ### The table of fault conditions (R200, R202) -/

/-- The condition of each cause on the record at `pc`. Each condition excludes those checked before it, so that at most
one holds. -/
def FaultCondition (s : State) : Cause → Prop
  | .illegalOpcode => 9 ≤ wordOpcode s.fetchRecord
  | .reservedNonZero => wordOpcode s.fetchRecord < 9 ∧ wordReserved s.fetchRecord ≠ 0
  | .sourceRegisterOutOfRange => wordOpcode s.fetchRecord = 6 ∧ wordReserved s.fetchRecord = 0 ∧
      256 ≤ (wordArgument s.fetchRecord).toNat
  | .jumpTargetOutOfRange => (wordOpcode s.fetchRecord = 7 ∨ wordOpcode s.fetchRecord = 8) ∧
      wordReserved s.fetchRecord = 0 ∧ s.progLen ≤ wordArgument s.fetchRecord

/-- A fetched record that meets the condition of a cause is its fault entry. -/
theorem step_of_faultCondition {s : State} (hs : CanExecute s) {c : Cause} (h : FaultCondition s c) :
    step s = .next (s.raise c) := by
  cases c with
  | illegalOpcode => exact step_of_decode_error hs (decode_illegalOpcode h)
  | reservedNonZero => exact step_of_decode_error hs (decode_reservedNonZero h.1 h.2)
  | sourceRegisterOutOfRange =>
    obtain ⟨hop, hres, harg⟩ := h
    exact (step_of_executes ⟨hs, decode_of_opcode .cpy hres hop⟩).trans (exec_cpy_outOfRange _ harg s)
  | jumpTargetOutOfRange =>
    obtain ⟨hop | hop, hres, harg⟩ := h
    · exact step_of_jump_outOfRange (.inl ⟨hs, decode_of_opcode .jnz hres hop⟩) harg
    · exact step_of_jump_outOfRange (.inr ⟨hs, decode_of_opcode .jwz hres hop⟩) harg

/-- Every opcode value below 9 is that of an operation (30_encoding.md R74). -/
theorem exists_opcodeMap_of_lt {n : Nat} (h : n < 9) : ∃ m, n = (opcodeMap m).toNat := by
  have hall : ∀ n < 9, ∃ m ∈ Mnemonic.all, n = (opcodeMap m).toNat := by decide
  obtain ⟨m, -, hm⟩ := hall n h
  exact ⟨m, hm⟩

/-- An instruction that ends its step with a fault has an operand out of range. -/
theorem InstrEnd.exists_operandFault {i : Instr} {s t : State} (e : InstrEnd i s t) (hs : s.fault = 0)
    (hf : t.fault ≠ 0) : ∃ c, operandFault s i = some c := by
  cases e with
  | faulted c hc => exact ⟨c, hc⟩
  | quit | jumped => exact absurd hs hf
  | completed u hi ht hu =>
    rw [State.complete_fault, hu] at hf
    exact absurd hs hf

/-- An operand fault of the instruction at `pc` is in the table. -/
theorem faultCondition_of_operandFault {s : State} {m : Mnemonic} {c : Cause}
    (hop : wordOpcode s.fetchRecord = (opcodeMap m).toNat) (hres : wordReserved s.fetchRecord = 0)
    (hc : operandFault s (m.instr (wordReg s.fetchRecord) (wordArgument s.fetchRecord)) = some c) :
    FaultCondition s c := by
  cases m with
  | nop | inc | dec | dbg | qit | ldc => cases hc
  | cpy =>
    obtain ⟨harg, ⟨⟩⟩ := Option.ite_none_left_eq_some.mp hc
    exact ⟨hop, hres, Nat.not_lt.mp harg⟩
  | jnz =>
    obtain ⟨harg, ⟨⟩⟩ := Option.ite_none_left_eq_some.mp hc
    exact ⟨.inl hop, hres, Nat.not_lt.mp harg⟩
  | jwz =>
    obtain ⟨harg, ⟨⟩⟩ := Option.ite_none_left_eq_some.mp hc
    exact ⟨.inr hop, hres, Nat.not_lt.mp harg⟩

/-- A step that fetches and reports a fault meets a condition of the table. -/
theorem exists_faultCondition_of_fault {s t : State} (hs : CanExecute s) (h : step s = .next t) (hf : t.fault ≠ 0) :
    ∃ c, FaultCondition s c := by
  by_cases hlegal : wordOpcode s.fetchRecord < 9
  · by_cases hres : wordReserved s.fetchRecord = 0
    · obtain ⟨m, hop⟩ := exists_opcodeMap_of_lt hlegal
      have hx : Executes s _ := ⟨hs, decode_of_opcode m hres hop⟩
      have hend : InstrEnd _ s t := exec_instrEnd ((step_of_executes hx).symm.trans h)
      obtain ⟨c, hc⟩ := hend.exists_operandFault hs.2.1 hf
      exact ⟨c, faultCondition_of_operandFault hop hres hc⟩
    · exact ⟨.reservedNonZero, hlegal, hres⟩
  · exact ⟨.illegalOpcode, Nat.not_lt.mp hlegal⟩

theorem Cause.code_injective : Function.Injective Cause.code := by
  intro c d
  cases c <;> cases d <;> decide

/-- Each code is reported under exactly the condition of its cause. -/
theorem fault_eq_code_iff {s t : State} (hs : CanExecute s) (h : step s = .next t) (c : Cause) :
    t.fault = c.code ↔ FaultCondition s c := by
  constructor
  · intro hf
    obtain ⟨d, hd⟩ := exists_faultCondition_of_fault hs h (hf ▸ c.code_ne_zero)
    cases (step_of_faultCondition hs hd).symm.trans h
    rwa [← Cause.code_injective hf]
  · intro hc
    cases (step_of_faultCondition hs hc).symm.trans h
    rfl

/-- No step writes a code above 4. -/
theorem step_fault_le {s t : State} (h : step s = .next t) : t.fault ≤ 4 := by
  by_cases hf : t.fault = 0
  · rw [hf]
    decide
  · obtain ⟨c, rfl⟩ := step_eq_raise_of_fault h hf
    exact c.code_le

/-- Settles O29: the four rows of the table, and the fault entry for the bound and for `pc`. -/
theorem faultCodesAreExactlyTheTable : Obligations.FaultCodesAreExactlyTheTable := by
  intro s t hs h
  have hrow := fault_eq_code_iff hs h
  refine ⟨hrow .illegalOpcode, hrow .reservedNonZero, hrow .sourceRegisterOutOfRange, hrow .jumpTargetOutOfRange,
    step_fault_le h, fun hf => ?samePc⟩
  case samePc =>
    obtain ⟨c, rfl⟩ := step_eq_raise_of_fault h hf
    rfl

/-! ### A fault ends the run (R205) -/

/-- A step needs a core without a fault. -/
theorem fault_of_step {s t : State} (h : step s = .next t) : s.fault = 0 := (step_cases h).2.1

/-- No step follows a fault. -/
theorem step_ne_next_of_fault {s : State} (hf : s.fault ≠ 0) (u : State) : step s ≠ .next u :=
  fun h => hf (fault_of_step h)

/-- A core without a step has no run but the empty one. -/
theorem runFor_of_no_step {n : Nat} {s t : State} (hno : ∀ u, step s ≠ .next u) (h : runFor n s = some t) :
    n = 0 ∧ t = s := by
  cases n with
  | zero => exact ⟨rfl, (Option.some.inj h).symm⟩
  | succ n =>
    obtain ⟨u, hu, -⟩ := runFor_succ h
    exact absurd hu (hno u)

/-- Settles O31: a step needs fault 0, so that the run after a fault is the empty one. -/
theorem faultIsWrittenAtMostOncePerRun : Obligations.FaultIsWrittenAtMostOncePerRun :=
  ⟨fun _ _ h => ⟨fault_of_step h, step_ne_next_of_fault⟩,
   fun _ m _ _ _ ht hu hf => runFor_of_no_step (step_ne_next_of_fault hf) ((runFor_add m ht).symm.trans hu)⟩

end Sys2Proof.Machine

/-! SUPPORT. The statements about reset and hazards (70_reset_and_hazards.md): what the launch premise
`ProgramWellFormed` rules out, the progress of a `Running` core, and the reset state. -/

namespace Sys2Proof.Machine

/-! ### The launch premise `ProgramWellFormed` (R233) -/

/-- No step writes the program, so every record still decodes after it. -/
theorem ProgramWellFormed.of_step {s t : State} (hwf : ProgramWellFormed s.mem s.progLen) (h : step s = .next t) :
    ProgramWellFormed t.mem t.progLen := by
  obtain ⟨hmem, hlen⟩ := step_program h
  rwa [hmem, hlen]

/-- A core that can execute executes an instruction, since the record at `pc` decodes. -/
theorem ProgramWellFormed.exists_executes {s : State} (hwf : ProgramWellFormed s.mem s.progLen) (hs : CanExecute s) :
    ∃ i, Executes s i :=
  have ⟨i, hi⟩ := hwf s.pc hs.2.2
  ⟨i, hs, hi⟩

/-- A step that reports a fault fetched a record: the end check halts without one (40_execution_cycle.md R109). -/
theorem canExecute_of_fault {s t : State} (h : step s = .next t) (hf : t.fault ≠ 0) : CanExecute s := by
  obtain ⟨hr, hs, ⟨-, rfl⟩ | ⟨hpc, -⟩ | ⟨hpc, -⟩⟩ := step_cases h
  · exact absurd hs hf
  · exact ⟨hr, hs, hpc⟩
  · exact ⟨hr, hs, hpc⟩

/-- Of the table of fault conditions only the two about operands can hold of an executed instruction. -/
theorem FaultCondition.operand_of_executes {s : State} {i : Instr} {c : Cause} (hc : FaultCondition s c)
    (hi : Executes s i) : ∃ r a,
      (Executes s (.cpy r a) ∧ 256 ≤ a.toNat ∧ c = .sourceRegisterOutOfRange) ∨
      ((Executes s (.jnz r a) ∨ Executes s (.jwz r a)) ∧ s.progLen ≤ a ∧ c = .jumpTargetOutOfRange) := by
  obtain ⟨hs, hd⟩ := hi
  cases c with
  | illegalOpcode => cases hd.symm.trans (decode_illegalOpcode hc)
  | reservedNonZero => cases hd.symm.trans (decode_reservedNonZero hc.1 hc.2)
  | sourceRegisterOutOfRange =>
    obtain ⟨hop, hres, harg⟩ := hc
    exact ⟨_, _, .inl ⟨⟨hs, decode_of_opcode .cpy hres hop⟩, harg, rfl⟩⟩
  | jumpTargetOutOfRange =>
    obtain ⟨hop | hop, hres, harg⟩ := hc
    · exact ⟨_, _, .inr ⟨.inl ⟨hs, decode_of_opcode .jnz hres hop⟩, harg, rfl⟩⟩
    · exact ⟨_, _, .inr ⟨.inr ⟨hs, decode_of_opcode .jwz hres hop⟩, harg, rfl⟩⟩

/-- Where every record decodes, a fault is that of an operand out of range, with its code (60_exceptions.md R200). -/
theorem ProgramWellFormed.operand_of_fault {s t : State} (hwf : ProgramWellFormed s.mem s.progLen)
    (h : step s = .next t) (hf : t.fault ≠ 0) : ∃ r a,
      (Executes s (.cpy r a) ∧ 256 ≤ a.toNat ∧ t.fault = 3) ∨
      ((Executes s (.jnz r a) ∨ Executes s (.jwz r a)) ∧ s.progLen ≤ a ∧ t.fault = 4) := by
  have hs : CanExecute s := canExecute_of_fault h hf
  obtain ⟨i, hi⟩ := hwf.exists_executes hs
  obtain ⟨c, hc⟩ := exists_faultCondition_of_fault hs h hf
  have hcode : t.fault = c.code := (fault_eq_code_iff hs h c).mpr hc
  obtain ⟨r, a, ⟨hx, ha, rfl⟩ | ⟨hx, ha, rfl⟩⟩ := hc.operand_of_executes hi
  · exact ⟨r, a, .inl ⟨hx, ha, hcode⟩⟩
  · exact ⟨r, a, .inr ⟨hx, ha, hcode⟩⟩

/-- Where every record decodes, no step reports a decode fault. -/
theorem ProgramWellFormed.no_decode_fault {s t : State} (hwf : ProgramWellFormed s.mem s.progLen)
    (h : step s = .next t) : t.fault ≠ 1 ∧ t.fault ≠ 2 := by
  by_cases hf : t.fault = 0
  · rw [hf]
    decide
  · obtain ⟨_, _, ⟨-, -, hcode⟩ | ⟨-, -, hcode⟩⟩ := hwf.operand_of_fault h hf
    all_goals
      rw [hcode]
      decide

/-- Settles O46: the program is kept, and the only faults left are those of an operand. -/
theorem everyStepKeepsTheWellFormedLaunch : Obligations.EveryStepKeepsTheWellFormedLaunch := by
  intro s t hwf _ _ h
  obtain ⟨hne1, hne2⟩ := hwf.no_decode_fault h
  exact ⟨hwf.of_step h, hne1, hne2, hwf.operand_of_fault h⟩

/-- A state of a launched run: every record decodes and no decode fault is reported. -/
def WellFormedLaunch (s : State) : Prop := ProgramWellFormed s.mem s.progLen ∧ s.fault ≠ 1 ∧ s.fault ≠ 2

theorem WellFormedLaunch.of_cleanReset {s : State} (hs : CleanReset s) (hwf : ProgramWellFormed s.mem s.progLen) :
    WellFormedLaunch s := by
  have hf : s.fault = 0 := by rw [hs, State.resetWith_fault]
  refine ⟨hwf, ?_⟩
  rw [hf]
  decide

theorem WellFormedLaunch.of_step {s t : State} (hs : WellFormedLaunch s) (h : step s = .next t) : WellFormedLaunch t :=
  have ⟨hwf, hne1, hne2⟩ := hs
  have ⟨hwf', hne1', hne2', _⟩ := everyStepKeepsTheWellFormedLaunch s t hwf hne1 hne2 h
  ⟨hwf', hne1', hne2'⟩

/-- Settles O38: the induction over the states of a run from reset, and the faults that the next step can report. -/
theorem aWellFormedProgramNeverTakesADecodeFault : Obligations.AWellFormedProgramNeverTakesADecodeFault := by
  intro s hs hwf t ht
  obtain ⟨hwf', hne1, hne2⟩ : WellFormedLaunch t :=
    ht.induct (.of_cleanReset hs hwf) fun _ _ => WellFormedLaunch.of_step
  refine ⟨hne1, hne2, fun u hu hf => ?operandFault⟩
  case operandFault =>
    obtain ⟨r, a, ⟨hx, ha, -⟩ | ⟨hx, ha, -⟩⟩ := hwf'.operand_of_fault hu hf
    · exact ⟨r, a, .inl ⟨hx, ha⟩⟩
    · exact ⟨r, a, .inr ⟨hx, ha⟩⟩

/-! ### A `Running` core (R236) -/

/-- Settles O25: there is a next state, and no step leads to the fourth pair. -/
theorem aRunningCoreAlwaysSteps : Obligations.ARunningCoreAlwaysSteps := fun _ hs =>
  have ⟨t, ht⟩ := exists_step_of_running hs
  ⟨t, ht, runState_ne_none_of_step ht⟩

/-! ### Reset (R230) -/

/-- Settles O41: the state before is discarded, so each field is that of the reset state. -/
theorem resetLoadsTheResetState : Obligations.ResetLoadsTheResetState := fun _ m n =>
  ⟨State.readReg_resetWith m n, State.resetWith_pc m n, State.resetWith_running m n, State.resetWith_fault m n,
   State.resetWith_out m n, State.resetWith_mem m n, State.resetWith_progLen m n⟩

end Sys2Proof.Machine

/-! SUPPORT. The statements that remain about the encoding (30_encoding.md): the round trip under a free opcode map
(R84, 92_eei_decisions.md D2) and the written words of the decoder vectors (95_test_vectors.md L2-1). -/

namespace Sys2Proof

/-! ### The round trip under an opcode map -/

/-- An instruction's record is that of its operation, with operands the instruction is made of. -/
theorem Instr.exists_toRecord_eq_make (map : Mnemonic → Byte) (i : Instr) :
    ∃ r a, i.toRecord map = Record.make map i.mnemonic r a ∧ i.mnemonic.instr r a = i := by
  cases i with
  | nop => exact ⟨0, 0, rfl, rfl⟩
  | inc r => exact ⟨r, 0, rfl, rfl⟩
  | dec r => exact ⟨r, 0, rfl, rfl⟩
  | dbg r => exact ⟨r, 0, rfl, rfl⟩
  | qit => exact ⟨0, 0, rfl, rfl⟩
  | ldc r a => exact ⟨r, a, rfl, rfl⟩
  | cpy r a => exact ⟨r, a, rfl, rfl⟩
  | jnz r k => exact ⟨r, k, rfl, rfl⟩
  | jwz r k => exact ⟨r, k, rfl, rfl⟩

theorem decodeWith_toWord (map : Mnemonic → Byte) (r : Record) : decodeWith map r.toWord = decodeRecord map r := by
  rw [decodeWith, Record.ofWord_toWord]

/-- Settles O5: the word gives the record back, whose opcode selects the operation since the map is injective. -/
theorem roundTripUnderEveryOpcodeMap : Obligations.RoundTripUnderEveryOpcodeMap := by
  intro map hinj i
  obtain ⟨r, a, hrec, hinstr⟩ := i.exists_toRecord_eq_make map
  rw [encodeWith, decodeWith_toWord, hrec, decodeRecord_make hinj, hinstr]

/-! ### The decoder vectors -/

/-- Settles O1: each word is a row of the decoder's case table, an operation's or one of the two errors'. -/
theorem writtenWordsDecode : Obligations.WrittenWordsDecode :=
  ⟨decode_of_isRecord (m := .inc) (a := 0) rfl, decode_of_isRecord (m := .ldc) rfl, decode_of_isRecord (m := .cpy) rfl,
   decode_of_isRecord (m := .jwz) rfl, decode_of_isRecord (m := .nop) (r := 0xFF) (a := 0xFFFFFFFFFFFFFFFF) rfl,
   decode_illegalOpcode (by decide), decode_reservedNonZero (by decide) (by decide)⟩

end Sys2Proof
